-- ==== Sys2Proof/Word.lean ====
section
/-! DEFINITION. The one word of the machine: a pattern of W = 64 bits (spec 00_scope.md R3 and section 6). -/

namespace Sys2Proof

/-- A pattern: what a register holds and what a transaction moves. Bit `k` has weight `2^k`
(LSB numbering, 00_scope.md section 6; 20_memory.md R35). -/
abbrev Word := BitVec 64

/-- A register number, `0 .. 15`: the 4-bit select of the register port (20_memory.md R31). -/
abbrev RegNum := Fin 16

end Sys2Proof
end

