-- ==== Sys2Proof/Config.lean ====
section
/-! DEFINITION. What is fixed when the block is built: the width and the trial-division bound
(spec 00_scope.md R3, R4). The spec leaves no value open, so there is no free value here. -/

namespace Sys2Proof

/-- `W`, the width of every register (00_scope.md R3): 64 is the only specified value. -/
abbrev Config.W : Nat := 64

/-- The configuration of a block: its trial-division bound `BOUND`, with the range a model admits,
`3 <= BOUND <= 2^(W-1)-1` (00_scope.md R4; 93_implementation_defined.md U8). No step changes it. -/
structure Config where
  /-- `BOUND` -/
  bound : Nat
  three_le_bound : 3 ≤ bound
  bound_le_max : bound ≤ 2 ^ (Config.W - 1) - 1
deriving DecidableEq, Repr

/-- The specified hardware: `BOUND = 100000` (00_scope.md R4). -/
def Config.specified : Config where
  bound := 100000
  three_le_bound := by decide
  bound_le_max := by decide

end Sys2Proof
end

