-- ==== Sys2Proof/Syntax.lean ====
section
/-! DEFINITION. The commands of the block, what the host can do at the register port, and the script
notation (spec 30_encoding.md, 20_memory.md R30). -/

namespace Sys2Proof

/-- The six commands, one constructor for each row of the opcode map (30_encoding.md R47). A command
word has no operand field: every command takes fixed operand registers (R46, R48). -/
inductive Instr where
  | bitat     -- `bit_at`, 40_bit_inspector.md R61
  | lmsb      -- `leftmost_set_bit`, 40_bit_inspector.md R63
  | factor    -- `factorize_semiprime`, 41_factorizer.md R71
  | modpow    -- `mod_pow`, 42_modexp.md R81
  | modinv    -- `mod_inverse`, 43_modinv.md R91
  | decrypt   -- `decrypt`, 44_decrypt.md R101
deriving DecidableEq, Repr

/-- Why a word is not a command word (30_encoding.md R49). -/
inductive DecodeReject where
  /-- A bit of `ZERO`, bits [63:4], is set. -/
  | zeroFieldSet
  /-- `ZERO` is clear and `OPCODE` is 0 or 7 to 15. -/
  | reservedOpcode (op : BitVec 4)
deriving DecidableEq, Repr

/-- The registers that have a name (10_state.md section 1). -/
inductive RegName where
  | opa | opb | opc | res0 | res1 | cmd | status | boundreg | widthreg
deriving DecidableEq, Repr

/-- A transaction of the register port: the complete tuple of kind, register number and data
(20_memory.md R30; 30_encoding.md R52). -/
inductive Transaction where
  | regRead (k : RegNum)
  | regWrite (k : RegNum) (v : Word)
deriving DecidableEq, Repr

/-- What the host can do to the block: present a transaction, or assert the one reset input
(20_memory.md R30; 70_reset_and_hazards.md R130). -/
inductive HostAction where
  | present (t : Transaction)
  | assertReset
deriving DecidableEq, Repr

/-- `<reg>` of the script notation: a register's name, or `r<k>` (30_encoding.md R52). -/
inductive RegRef where
  | named (r : RegName)
  | numbered (k : Nat)
deriving DecidableEq, Repr

/-- One line of a script (30_encoding.md R52). A value is the integer the text denotes; a hexadecimal
pattern denotes its unsigned value. -/
inductive ScriptLine where
  | wr (reg : RegRef) (value : Int)
  | rd (reg : RegRef)
deriving DecidableEq, Repr

/-- The pseudo-instructions: a mnemonic with its arguments in signature order, or a mnemonic alone
(30_encoding.md R53). -/
inductive PseudoCommand where
  | bitat (value index : Int)
  | lmsb (value : Int)
  | factor (n : Int)
  | modpow (base exponent modulus : Int)
  | modinv (a b : Int)
  | decrypt (n e c : Int)
  | bare (i : Instr)
deriving DecidableEq, Repr

end Sys2Proof
end

