-- ==== Sys2Proof/Decode.lean ====
section
/-! DEFINITION. Command words to commands and back: format `CMDW` (spec 30_encoding.md R45 to R49). -/

namespace Sys2Proof

/-- `OPCODE`, bits [3:0] of a command word (30_encoding.md R46). -/
def opcodeField (v : Word) : BitVec 4 := v.extractLsb' 0 4

/-- `ZERO`, bits [63:4] of a command word (30_encoding.md R46). -/
def zeroField (v : Word) : BitVec 60 := v.extractLsb' 4 60

/-- The opcode map (30_encoding.md R47); 0 and 7 to 15 are reserved. -/
def decodeOpcode (op : BitVec 4) : Except DecodeReject Instr :=
  match op.toNat with
  | 1 => .ok .bitat
  | 2 => .ok .lmsb
  | 3 => .ok .factor
  | 4 => .ok .modpow
  | 5 => .ok .modinv
  | 6 => .ok .decrypt
  | _ => .error (.reservedOpcode op)

/-- The decoder, total on all `2^64` patterns (30_encoding.md R49). -/
def decode (v : Word) : Except DecodeReject Instr :=
  if zeroField v = 0 then decodeOpcode (opcodeField v) else .error .zeroFieldSet

/-- The opcode of a command (30_encoding.md R47). -/
def encodeOpcode : Instr → BitVec 4
  | .bitat => 1
  | .lmsb => 2
  | .factor => 3
  | .modpow => 4
  | .modinv => 5
  | .decrypt => 6

/-- The command word of a command: `OPCODE` below a zero `ZERO` (30_encoding.md R46). -/
def encode (i : Instr) : Word := (encodeOpcode i).setWidth 64

/-- The command word whose low `nbits` bits are those of `w`, numbered as the opcode table numbers them
(bit 0 least significant), every bit above them zero; the longest instruction is one 64-bit word (R45). -/
def tableWord (nbits w : Nat) : Word := BitVec.ofNat 64 (w % 2 ^ nbits)

/-- The command the decoder reads from an opcode-table word; `none` where it rejects the word. -/
def decodeTableWord (nbits w : Nat) : Option Instr :=
  match decode (tableWord nbits w) with
  | .ok i => some i
  | .error _ => none

end Sys2Proof
end

