-- ==== Sys2Proof/Machine/State.lean ====
section
/-! DEFINITION. The architectural state, its value after reset, and the reasons a step can stop
(spec 10_state.md; 60_exceptions.md R110). -/

namespace Sys2Proof.Machine

/-- Why a step stops the machine: for no reason. An error of a command is a code in `STATUS.ERR`, never
a trap (60_exceptions.md R110); every transaction is permitted (R123) and every pattern has a defined
outcome (R125). The type is closed and empty; that is safe, since nothing is cut short. Log 7. -/
inductive Fault : Type
deriving DecidableEq, Repr

/-- Why the model has no meaning for an instruction. -/
inductive Refusal where
  /-- An arm of `exec` that has no meaning yet would raise it, with the row's mnemonic. No arm does, and
  no meaning answers it. Safe: the machine stops where the hardware goes on. -/
  | notModelled (mnemonic : String)
deriving DecidableEq, Repr

/-- The error names a command can complete with (60_exceptions.md R111). OverflowRisk has no
constructor: no rule raises it (R113). -/
inductive ErrorName where
  | factorizationExhausted   -- 60_exceptions.md R112
  | nonInvertibleExponent    -- 60_exceptions.md R114
  | operandRange             -- 60_exceptions.md R117
  | illegalCommand           -- 60_exceptions.md R118
deriving DecidableEq, Repr

/-- The state of the block (10_state.md section 1) and, in the last two fields, the host agent's side
of the register port, which is the model's own (log 1). -/
structure State where
  /-- `OPA`, register 0 (R10, R11). -/
  opa : Word
  /-- `OPB`, register 1 (R10, R11). -/
  opb : Word
  /-- `OPC`, register 2 (R10, R11). -/
  opc : Word
  /-- `RES0`, register 3 (R10, R12). -/
  res0 : Word
  /-- `RES1`, register 4 (R10, R12). -/
  res1 : Word
  /-- `CMD`, register 5: the last command word written, legal or not (R14). -/
  cmd : Word
  /-- `STATUS.DONE`, bit 0 of register 6 (R15). -/
  done : Bool
  /-- `STATUS.ERR`, bits [3:1] of register 6 (R15). -/
  err : BitVec 3
  /-- The host's actions not yet performed, the next one first (30_encoding.md R52). -/
  script : List HostAction
  /-- What `RegRead` has returned to the host, oldest first (20_memory.md R30). -/
  returned : List Word
deriving DecidableEq, Repr

/-- The machine right after reset (10_state.md R23): every register zero. The host has yet to be given
its script (log 2). -/
def State.reset : State where
  opa := 0
  opb := 0
  opc := 0
  res0 := 0
  res1 := 0
  cmd := 0
  done := false
  err := 0
  script := []
  returned := []

end Sys2Proof.Machine
end

