-- ==== Sys2Proof/Machine/Operands.lean ====
section
/-! DEFINITION. How a pattern is read as an operand and how an integer becomes a result (spec
00_scope.md section 6, R5; 30_encoding.md R48). -/

namespace Sys2Proof.Machine

/-- `u(v)`, the unsigned value of a pattern. -/
def unsignedValue (v : Word) : Nat := v.toNat

/-- `s(v)`, the signed value of a pattern: two's complement (00_scope.md R3). -/
def signedValue (v : Word) : Int := v.toInt

/-- `toW(z)`, the pattern congruent to `z` modulo `2^W`. -/
def toW (z : Int) : Word := BitVec.ofInt 64 z

/-- `zext_W` of a one-bit pattern, the result form of BITAT (40_bit_inspector.md R61). -/
def zextBit (b : Bool) : Word := (BitVec.ofBool b).setWidth 64

/-- `y divides x` for an integer `x` and `y >= 1` (00_scope.md section 6). -/
def dividesInt (y : Nat) (x : Int) : Bool := decide ((y : Int) ∣ x)

end Sys2Proof.Machine
end

