-- ==== Sys2Proof/Machine/Flags.lean ====
section
/-! DEFINITION. `STATUS`: the error codes and the word a read of it returns (spec 10_state.md R15, R20;
60_exceptions.md R111). -/

namespace Sys2Proof.Machine

/-- `code(X)`, the value of `STATUS.ERR` for an error (60_exceptions.md R111). -/
def errorCode : ErrorName → BitVec 3
  | .factorizationExhausted => 1
  | .nonInvertibleExponent => 2
  | .operandRange => 4
  | .illegalCommand => 5

/-- The pattern of `STATUS`: `DONE` in bit 0, `ERR` in bits [3:1], zero above (10_state.md R15). -/
def statusWord (done : Bool) (err : BitVec 3) : Word :=
  (err.setWidth 64 <<< 1) ||| (BitVec.ofBool done).setWidth 64

/-- What every completion does to the flags: `ERR` is rewritten, `DONE` is set
(10_state.md R15, R20; 60_exceptions.md R115, R116). -/
def State.setStatus (e : BitVec 3) (s : State) : State := { s with err := e, done := true }

end Sys2Proof.Machine
end

