-- ==== Sys2Proof/Machine/Ops.lean ====
section
/-! DEFINITION. The named operations over the registers: writing one, reading one by its number,
completing a command with results or with an error, and reset (spec 20_memory.md R32, R33;
60_exceptions.md R115, R116; 70_reset_and_hazards.md R130). -/

namespace Sys2Proof.Machine

def State.setOpa (v : Word) (s : State) : State := { s with opa := v }
def State.setOpb (v : Word) (s : State) : State := { s with opb := v }
def State.setOpc (v : Word) (s : State) : State := { s with opc := v }
def State.setCmd (v : Word) (s : State) : State := { s with cmd := v }
def State.setResults (r0 r1 : Word) (s : State) : State := { s with res0 := r0, res1 := r1 }
def State.setScript (l : List HostAction) (s : State) : State := { s with script := l }

/-- The host receives the pattern a `RegRead` returned. -/
def State.pushReturned (v : Word) (s : State) : State := { s with returned := s.returned ++ [v] }

/-- The register a number selects; 9 to 15 are reserved (10_state.md section 1, R24). -/
def regOfNumber (k : RegNum) : Option RegName :=
  match k.val with
  | 0 => some .opa
  | 1 => some .opb
  | 2 => some .opc
  | 3 => some .res0
  | 4 => some .res1
  | 5 => some .cmd
  | 6 => some .status
  | 7 => some .boundreg
  | 8 => some .widthreg
  | _ => none

/-- The number of a named register (10_state.md section 1). -/
def numberOfReg : RegName → RegNum
  | .opa => 0
  | .opb => 1
  | .opc => 2
  | .res0 => 3
  | .res1 => 4
  | .cmd => 5
  | .status => 6
  | .boundreg => 7
  | .widthreg => 8

/-- What a named register of a block reads as (20_memory.md R32; the two constants: 10_state.md R17, R18). -/
def readNamed (cfg : Config) (s : State) : RegName → Word
  | .opa => s.opa
  | .opb => s.opb
  | .opc => s.opc
  | .res0 => s.res0
  | .res1 => s.res1
  | .cmd => s.cmd
  | .status => statusWord s.done s.err
  | .boundreg => toW cfg.bound
  | .widthreg => toW Config.W

/-- `RegRead(k)`: a function of the state, so that a read changes nothing; a reserved number reads zero
(20_memory.md R32; 10_state.md R24). -/
def regRead (cfg : Config) (k : RegNum) (s : State) : Word :=
  match regOfNumber k with
  | some r => readNamed cfg s r
  | none => 0

/-- `complete(r0, r1)`, successful completion (60_exceptions.md R115). -/
def complete (r0 r1 : Word) (s : State) : State := (s.setResults r0 r1).setStatus 0

/-- `raise X`, completion with an error: zero results and the code. This is all there is of taking an
exception on this hardware, and there is no return from it (60_exceptions.md R110, R116, R121). -/
def raiseError (x : ErrorName) (s : State) : State := (s.setResults 0 0).setStatus (errorCode x)

/-- How every command ends: with its two results or with the error its function returned
(00_scope.md R9; 60_exceptions.md R115, R116). -/
def finish (r : Except ErrorName (Word × Word)) (s : State) : Host.Outcome State Fault Refusal :=
  match r with
  | .ok (r0, r1) => .next (complete r0 r1 s)
  | .error x => .next (raiseError x s)

/-- The reset input: every register of the block takes its reset value; the host's side of the port is
not the block's to reset (70_reset_and_hazards.md R130; log 4). -/
def resetBlock (s : State) : State :=
  { State.reset with script := s.script, returned := s.returned }

end Sys2Proof.Machine
end

