-- ==== Sys2Proof/Machine/BitInspector.lean ====
section
/-! DEFINITION. The Bit Inspector unit: BITAT and LMSB (spec 40_bit_inspector.md). -/

namespace Sys2Proof.Machine

/-- `bit_at(v, j)`: bit `W-1-j` of the pattern for `0 <= j < W`; outside that range the function has no
value, which is `none` (40_bit_inspector.md R60; log 6). -/
def bitAt (v : Word) (j : Int) : Option Bool :=
  if 0 ≤ j ∧ j < Config.W then some (v.getLsbD (Config.W - 1 - j.toNat)) else none

/-- The scan of `leftmost_set_bit` over its last `k` indices, `W-k` to `W-1` (40_bit_inspector.md R62). -/
def scanLeftmost (v : Word) : Nat → Int
  | 0 => -1
  | k + 1 =>
    if bitAt v (Config.W - 1 - k) = some true then Config.W - 1 - k else scanLeftmost v k

/-- `leftmost_set_bit(v)`: the first index whose bit is set, or the sentinel -1 (40_bit_inspector.md R62). -/
def leftmostSetBit (v : Word) : Int := scanLeftmost v Config.W

/-- What BITAT computes from `OPA` and `OPB` (40_bit_inspector.md R61). -/
def bitatResult (opa opb : Word) : Except ErrorName (Word × Word) :=
  match bitAt opa (signedValue opb) with
  | some b => .ok (zextBit b, toW 0)
  | none => .error .operandRange

/-- What LMSB computes from `OPA` (40_bit_inspector.md R63). -/
def lmsbResult (opa : Word) : Except ErrorName (Word × Word) :=
  .ok (toW (leftmostSetBit opa), toW 0)

/-- BITAT (40_bit_inspector.md R61). -/
def execBitat (s : State) : Host.Outcome State Fault Refusal :=
  finish (bitatResult s.opa s.opb) s

/-- LMSB (40_bit_inspector.md R63). -/
def execLmsb (s : State) : Host.Outcome State Fault Refusal :=
  finish (lmsbResult s.opa) s

end Sys2Proof.Machine
end

