-- ==== Sys2Proof/Machine/Factorizer.lean ====
section
/-! DEFINITION. The Integer Factorizer unit: FACTOR (spec 41_factorizer.md). -/

namespace Sys2Proof.Machine

/-- The loop of `factorize_semiprime` from candidate `i` (41_factorizer.md R70). There is no exit but
the first divisor and the bound. The first argument bounds the iterations and is never what ends the
loop, since it starts at `bound` (log 10). -/
def trialDivide (bound : Nat) (n : Int) : (fuel : Nat) → (i : Nat) → Except ErrorName (Int × Int)
  | 0, _ => .error .factorizationExhausted
  | fuel + 1, i =>
    if i < bound then
      if dividesInt i n then .ok (n / i, i) else trialDivide bound n fuel (i + 2)
    else .error .factorizationExhausted

/-- `factorize_semiprime(n)` with its bound as an argument (41_factorizer.md R70; 00_scope.md R4). -/
def factorizeSemiprime (bound : Nat) (n : Int) : Except ErrorName (Int × Int) :=
  trialDivide bound n bound 3

/-- What FACTOR computes from `OPA` (41_factorizer.md R71). -/
def factorResult (cfg : Config) (opa : Word) : Except ErrorName (Word × Word) :=
  match factorizeSemiprime cfg.bound (signedValue opa) with
  | .ok (p, q) => .ok (toW p, toW q)
  | .error x => .error x

/-- FACTOR of a block built with any permitted bound (41_factorizer.md R71; 00_scope.md R4). -/
def execFactorWith (cfg : Config) (s : State) : Host.Outcome State Fault Refusal :=
  finish (factorResult cfg s.opa) s

/-- FACTOR of the specified hardware (41_factorizer.md R71). -/
def execFactor (s : State) : Host.Outcome State Fault Refusal :=
  execFactorWith Config.specified s

end Sys2Proof.Machine
end

