-- ==== Sys2Proof/Machine/ModExp.lean ====
section
/-! DEFINITION. The Modular Exponentiator unit: MODPOW (spec 42_modexp.md). -/

namespace Sys2Proof.Machine

/-- One iteration of `mod_pow` at index `j`: square and reduce, then multiply by the base and reduce if
the exponent's bit is set (42_modexp.md R80). Products are taken in the integers (R86). -/
def squareMultiply (b m : Int) (E : Word) (j r : Int) : Int :=
  let sq := (r * r) % m
  if bitAt E j = some true then (sq * b) % m else sq

/-- The loop of `mod_pow` over its last `k` indices, `W-k` to `W-1` (42_modexp.md R80). -/
def modPowLoop (b m : Int) (E : Word) : (k : Nat) → (r : Int) → Int
  | 0, r => r
  | k + 1, r => modPowLoop b m E k (squareMultiply b m E (Config.W - 1 - k) r)

/-- `mod_pow(b, E, m)`: the running result starts at the base, and the sentinel of a zero exponent
selects no iteration (42_modexp.md R80, R83; 90_conflicts.md C1). -/
def modPow (b : Int) (E : Word) (m : Int) : Int :=
  let l := leftmostSetBit E
  if l = -1 then b else modPowLoop b m E (Config.W - 1 - l).toNat b

/-- What MODPOW computes from `OPA`, `OPB` and `OPC` (42_modexp.md R81). -/
def modpowResult (opa opb opc : Word) : Except ErrorName (Word × Word) :=
  if signedValue opc < 1 ∨ signedValue opa < 0 then .error .operandRange
  else .ok (toW (modPow (signedValue opa) opb (signedValue opc)), toW 0)

/-- MODPOW (42_modexp.md R81). -/
def execModpow (s : State) : Host.Outcome State Fault Refusal :=
  finish (modpowResult s.opa s.opb s.opc) s

end Sys2Proof.Machine
end

