-- ==== Sys2Proof/Machine/ModInv.lean ====
section
/-! DEFINITION. The Modular Inverse Solver unit: MODINV (spec 43_modinv.md). -/

namespace Sys2Proof.Machine

/-- A remainder of the extended Euclidean algorithm with its two Bezout coefficients (43_modinv.md R90). -/
structure EuclidRow where
  r : Int
  s : Int
  t : Int
deriving DecidableEq, Repr

/-- The recurrence `x_{i+1} = x_{i-1} - q * x_i` on a remainder and both coefficients, `q` the quotient
of the two remainders (43_modinv.md R90). -/
def euclidNext (x y : EuclidRow) : EuclidRow :=
  let q := x.r / y.r
  { r := x.r - q * y.r, s := x.s - q * y.s, t := x.t - q * y.t }

/-- The loop of `mod_inverse`: it ends at the row of the last non-zero remainder (43_modinv.md R90).
The first argument bounds the iterations and is never what ends the loop, since the second remainder
falls at each one (R97; log 10). -/
def euclidLoop : (fuel : Nat) → (x y : EuclidRow) → EuclidRow
  | 0, x, _ => x
  | fuel + 1, x, y => if y.r = 0 then x else euclidLoop fuel y (euclidNext x y)

/-- The last row for `(a, b)`: `r = gcd(a, b)` and `a*s + b*t = r` (43_modinv.md R90, R94). -/
def extendedEuclid (a b : Int) : EuclidRow :=
  euclidLoop (b.toNat + 1) { r := a, s := 1, t := 0 } { r := b, s := 0, t := 1 }

/-- `mod_inverse(a, b)`: the greatest common divisor and the coefficient of `b` (43_modinv.md R90). -/
def modInverse (a b : Int) : Int × Int :=
  ((extendedEuclid a b).r, (extendedEuclid a b).t)

/-- What MODINV computes from `OPA` and `OPB` (43_modinv.md R91). -/
def modinvResult (opa opb : Word) : Except ErrorName (Word × Word) :=
  if signedValue opa < 0 ∨ signedValue opb < 0 then .error .operandRange
  else
    match modInverse (signedValue opa) (signedValue opb) with
    | (g, t) => if g = 1 then .ok (toW t, toW 0) else .error .nonInvertibleExponent

/-- MODINV (43_modinv.md R91). -/
def execModinv (s : State) : Host.Outcome State Fault Refusal :=
  finish (modinvResult s.opa s.opb) s

end Sys2Proof.Machine
end

