-- ==== Sys2Proof/Machine/Decrypt.lean ====
section
/-! DEFINITION. The composition: DECRYPT (spec 44_decrypt.md). -/

namespace Sys2Proof.Machine

/-- `(p-1)(q-1)` in the integers (44_decrypt.md R102). -/
def totient (p q : Int) : Int := (p - 1) * (q - 1)

/-- The private exponent from the coefficient: one conditional addition (44_decrypt.md R103). -/
def normaliseExponent (phi t : Int) : Int := if t < 0 then t + phi else t

/-- `decrypt(n, e, c)` once the totient is known: the checks and the two units that follow
(44_decrypt.md R100, checks 2 to 4 of R104). -/
def decryptWithTotient (phi n e c : Int) : Except ErrorName Int :=
  if phi < 0 ∨ e < 0 then .error .operandRange
  else
    match modInverse phi e with
    | (g, t) =>
      if g = 1 then
        if n < 1 ∨ c < 0 then .error .operandRange
        else .ok (modPow c (toW (normaliseExponent phi t)) n)
      else .error .nonInvertibleExponent

/-- `decrypt(n, e, c)` (44_decrypt.md R100). -/
def decryptValue (bound : Nat) (n e c : Int) : Except ErrorName Int :=
  match factorizeSemiprime bound n with
  | .ok (p, q) => decryptWithTotient (totient p q) n e c
  | .error x => .error x

/-- What DECRYPT computes from `OPA`, `OPB` and `OPC` (44_decrypt.md R101). -/
def decryptResult (cfg : Config) (opa opb opc : Word) : Except ErrorName (Word × Word) :=
  match decryptValue cfg.bound (signedValue opa) (signedValue opb) (signedValue opc) with
  | .ok m => .ok (toW m, toW 0)
  | .error x => .error x

/-- DECRYPT of a block built with any permitted bound (44_decrypt.md R101; 00_scope.md R4). -/
def execDecryptWith (cfg : Config) (s : State) : Host.Outcome State Fault Refusal :=
  finish (decryptResult cfg s.opa s.opb s.opc) s

/-- DECRYPT of the specified hardware (44_decrypt.md R101). -/
def execDecrypt (s : State) : Host.Outcome State Fault Refusal :=
  execDecryptWith Config.specified s

end Sys2Proof.Machine
end

