-- ==== Sys2Proof/Machine/Port.lean ====
section
/-! DEFINITION. The register port: what a host action does to the block (spec 20_memory.md R30 to R34;
70_reset_and_hazards.md R130). The port of a block takes the block's configuration and what its commands
do, so that one port serves every build (00_scope.md R4). -/

namespace Sys2Proof.Machine

/-- What the commands of a block do. -/
abbrev Commands : Type := Instr → State → Host.Outcome State Fault Refusal

/-- A write of `v` to `CMD`, one architectural step: the word is stored, then the command it encodes
runs to completion; a word that encodes none completes with IllegalCommand, reading no operand
(20_memory.md R34; 30_encoding.md R49; 60_exceptions.md R118). -/
def issueCommand (run : Commands) (v : Word) (s : State) : Host.Outcome State Fault Refusal :=
  match decode v with
  | .ok i => run i (s.setCmd v)
  | .error _ => .next (raiseError .illegalCommand (s.setCmd v))

/-- `RegWrite(k, v)` (20_memory.md R33): operands are stored, `CMD` issues, every other number is
accepted and ignored. -/
def regWrite (run : Commands) (k : RegNum) (v : Word) (s : State) :
    Host.Outcome State Fault Refusal :=
  match regOfNumber k with
  | some .opa => .next (s.setOpa v)
  | some .opb => .next (s.setOpb v)
  | some .opc => .next (s.setOpc v)
  | some .cmd => issueCommand run v s
  | some .res0 => .next s
  | some .res1 => .next s
  | some .status => .next s
  | some .boundreg => .next s
  | some .widthreg => .next s
  | none => .next s

/-- One transaction, performed completely (20_memory.md R30, R37, R40). -/
def performTransaction (cfg : Config) (run : Commands) (t : Transaction) (s : State) :
    Host.Outcome State Fault Refusal :=
  match t with
  | .regRead k => .next (s.pushReturned (regRead cfg k s))
  | .regWrite k v => regWrite run k v s

/-- One action of the host. -/
def performAction (cfg : Config) (run : Commands) (a : HostAction) (s : State) :
    Host.Outcome State Fault Refusal :=
  match a with
  | .present t => performTransaction cfg run t s
  | .assertReset => .next (resetBlock s)

/-- The host's next action, performed; with none left the block is idle and holds its registers
(20_memory.md R40; 60_exceptions.md R124; log 3). -/
def runNextAction (cfg : Config) (run : Commands) (s : State) : Host.Outcome State Fault Refusal :=
  match s.script with
  | [] => .next s
  | a :: rest => performAction cfg run a (s.setScript rest)

end Sys2Proof.Machine
end

