-- ==== Sys2Proof/Machine/Step.lean ====
section
/-! DEFINITION. One step of the machine, and placing one command for the next step (spec 20_memory.md R34, R40). -/

namespace Sys2Proof.Machine

/-- One step of the specified hardware: the host's next action, performed completely. -/
def step (s : State) : Host.Outcome State Fault Refusal :=
  runNextAction Config.specified exec s

/-- `s` with the host about to write that command word to `CMD` (register number 5). The block fetches
nothing (10_state.md R19): a command arrives as the data of a host write (30_encoding.md R45; log 2). -/
def State.withFetchWord (s : State) (nbits w : Nat) : State :=
  { s with script := .present (.regWrite 5 (tableWord nbits w)) :: s.script }

end Sys2Proof.Machine
end

