-- ==== Sys2Proof/Machine/Build.lean ====
section
/-! DEFINITION. The block as a function of its configuration: `BOUND` is an argument, with any value the
spec admits (spec 00_scope.md R4; 93_implementation_defined.md U8). `exec` and `step` are the case
`Config.specified`. The bound enters in three places only: FACTOR, DECRYPT and a read of `BOUNDREG`. -/

namespace Sys2Proof.Machine

/-- The meaning of each command in a block built with the configuration `cfg` (00_scope.md R4). -/
def execWith (cfg : Config) (i : Instr) (s : State) : Host.Outcome State Fault Refusal :=
  match i with
  | .bitat => execBitat s
  | .lmsb => execLmsb s
  | .factor => execFactorWith cfg s
  | .modpow => execModpow s
  | .modinv => execModinv s
  | .decrypt => execDecryptWith cfg s

/-- One step of a block built with the configuration `cfg`. -/
def stepWith (cfg : Config) (s : State) : Host.Outcome State Fault Refusal :=
  runNextAction cfg (execWith cfg) s

end Sys2Proof.Machine
end

