-- ==== Sys2Proof/WellFormed.lean ====
section
/-! DEFINITION. Which terms of the syntax the hardware has (spec 30_encoding.md R46, R52, R53). -/

namespace Sys2Proof

/-- Every command is well formed: a command word has no field beside `OPCODE`, and the constructor
fixes that (30_encoding.md R46, R48). -/
def Instr.wellFormed : Instr → Bool
  | .bitat | .lmsb | .factor | .modpow | .modinv | .decrypt => true

/-- `r<k>` names a register number `0 .. 15` (30_encoding.md R52). -/
def RegRef.wellFormed : RegRef → Bool
  | .named _ => true
  | .numbered k => k < 16

/-- The values a script may write: `-2^63 .. 2^64-1` (30_encoding.md R52). -/
def scriptValue (value : Int) : Bool :=
  -2 ^ 63 ≤ value && value ≤ 2 ^ 64 - 1

def ScriptLine.wellFormed : ScriptLine → Bool
  | .wr reg value => reg.wellFormed && scriptValue value
  | .rd reg => reg.wellFormed

/-- A pseudo-instruction's arguments are values of the `wr` lines it stands for (30_encoding.md R53). -/
def PseudoCommand.wellFormed : PseudoCommand → Bool
  | .bitat value index => scriptValue value && scriptValue index
  | .lmsb value => scriptValue value
  | .factor n => scriptValue n
  | .modpow base exponent modulus => scriptValue base && scriptValue exponent && scriptValue modulus
  | .modinv a b => scriptValue a && scriptValue b
  | .decrypt n e c => scriptValue n && scriptValue e && scriptValue c
  | .bare i => i.wellFormed

end Sys2Proof
end

