-- ==== Sys2Proof/Machine/Script.lean ====
section
/-! DEFINITION. The script notation: the transaction of a line, the lines of a pseudo-instruction
(spec 30_encoding.md R52, R53). -/

namespace Sys2Proof.Machine

/-- The number `<reg>` stands for; none for `r<k>` with `k` above 15 (30_encoding.md R52). -/
def regRefNumber : RegRef → Option RegNum
  | .named r => some (numberOfReg r)
  | .numbered k => if h : k < 16 then some ⟨k, h⟩ else none

/-- The transaction of a line (30_encoding.md R52); none for a line that is not well formed (log 11). -/
def lineTransaction (l : ScriptLine) : Option Transaction :=
  if l.wellFormed then
    match l with
    | .wr reg value => (regRefNumber reg).map fun k => .regWrite k (toW value)
    | .rd reg => (regRefNumber reg).map fun k => .regRead k
  else none

/-- `wr <reg>, <value>` for a named register. -/
def wrLine (r : RegName) (value : Int) : ScriptLine := .wr (.named r) value

/-- `wr CMD, <opcode>`: a mnemonic written with no arguments (30_encoding.md R53). -/
def issueLine (i : Instr) : ScriptLine := wrLine .cmd (encodeOpcode i).toNat

/-- The lines a pseudo-instruction stands for: its operands in signature order, then the command
(30_encoding.md R53). -/
def expandPseudo : PseudoCommand → List ScriptLine
  | .bitat value index => [wrLine .opa value, wrLine .opb index, issueLine .bitat]
  | .lmsb value => [wrLine .opa value, issueLine .lmsb]
  | .factor n => [wrLine .opa n, issueLine .factor]
  | .modpow base exponent modulus =>
    [wrLine .opa base, wrLine .opb exponent, wrLine .opc modulus, issueLine .modpow]
  | .modinv a b => [wrLine .opa a, wrLine .opb b, issueLine .modinv]
  | .decrypt n e c => [wrLine .opa n, wrLine .opb e, wrLine .opc c, issueLine .decrypt]
  | .bare i => [issueLine i]

/-- A script as the host's actions; none if a line of it is not well formed. -/
def assembleScript : List ScriptLine → Option (List HostAction)
  | [] => some []
  | l :: ls =>
    match lineTransaction l, assembleScript ls with
    | some t, some ts => some (.present t :: ts)
    | _, _ => none

end Sys2Proof.Machine
end

