-- ==== Sys2Proof/Safety.lean ====
section
/-! DEFINITION. The terms the statements are written in: the states a completion leaves, the invariant of
the block, who may write what, and a run of steps (spec 10_state.md R11 to R16; 20_memory.md R40;
60_exceptions.md R111, R115, R116). -/

namespace Sys2Proof.Safety

open Sys2Proof.Machine

/-- What `complete(r0, r1)` leaves, written out from 60_exceptions.md R115 and not through the model's
own operation. -/
abbrev succeeded (r0 r1 : Word) (s : State) : State :=
  { s with res0 := r0, res1 := r1, err := 0, done := true }

/-- What `raise X` leaves for an error code, written out from 60_exceptions.md R116. -/
abbrev failed (code : BitVec 3) (s : State) : State :=
  { s with res0 := 0, res1 := 0, err := code, done := true }

/-- A code the block can produce: 0, 1, 2, 4 or 5; 3, 6 and 7 never (60_exceptions.md R111, R113). -/
abbrev legalErrorCode (e : BitVec 3) : Prop := e = 0 ∨ e = 1 ∨ e = 2 ∨ e = 4 ∨ e = 5

/-- The codes a command can complete with (60_exceptions.md R111, R119). -/
def codesOf : Instr → List (BitVec 3)
  | .bitat => [0, 4]
  | .lmsb => [0]
  | .factor => [0, 1]
  | .modpow => [0, 4]
  | .modinv => [0, 4, 2]
  | .decrypt => [0, 1, 4, 2]

/-- What every reachable state keeps: a code the block can produce (60_exceptions.md R111, R113); zero
results beside an error (R116); before the first command everything a completion writes at its reset
value (10_state.md R15) and no word in `CMD` (R14); after it, the code in `STATUS.ERR` is one that the
word standing in `CMD` can complete with (R111, R119); and a second result only under the word of FACTOR
(10_state.md R12; 30_encoding.md R48). -/
structure BlockInv (s : State) : Prop where
  errLegal : legalErrorCode s.err
  errZeroResults : s.err ≠ 0 → s.res0 = 0 ∧ s.res1 = 0
  idleBeforeFirst : s.done = false → s.err = 0 ∧ s.res0 = 0 ∧ s.res1 = 0 ∧ s.cmd = 0
  codeOfCommand : s.done = true → ∀ i, decode s.cmd = .ok i → s.err ∈ codesOf i
  codeOfIllegalWord : s.done = true → (∀ i, decode s.cmd ≠ .ok i) → s.err = 5
  secondResult : s.cmd ≠ 3 → s.res1 = 0

/-- Two states that hold the same patterns in the operand registers a command uses; a register it does
not use may differ (30_encoding.md R48; 10_state.md R11). -/
def sameUsedOperands : Instr → State → State → Prop
  | .bitat, s, t => s.opa = t.opa ∧ s.opb = t.opb
  | .lmsb, s, t => s.opa = t.opa
  | .factor, s, t => s.opa = t.opa
  | .modpow, s, t => s.opa = t.opa ∧ s.opb = t.opb ∧ s.opc = t.opc
  | .modinv, s, t => s.opa = t.opa ∧ s.opb = t.opb
  | .decrypt, s, t => s.opa = t.opa ∧ s.opb = t.opb ∧ s.opc = t.opc

/-- Two states that agree on everything a completion writes. -/
abbrev sameOutputs (s t : State) : Prop :=
  s.res0 = t.res0 ∧ s.res1 = t.res1 ∧ s.err = t.err ∧ s.done = t.done

/-- Two states that agree on everything a command leaves alone: the operand registers, `CMD` and the
host's side of the port (10_state.md R11; 60_exceptions.md R115, R116). -/
abbrev sameOutsideOutputs (s t : State) : Prop :=
  s.opa = t.opa ∧ s.opb = t.opb ∧ s.opc = t.opc ∧ s.cmd = t.cmd ∧ s.script = t.script ∧
    s.returned = t.returned

/-- The action is a write to register number `k`. -/
def writesNumber (k : RegNum) : HostAction → Bool
  | .present (.regWrite j _) => j = k
  | .present (.regRead _) => false
  | .assertReset => false

/-- The host's next action, if it has one, is neither a write to register number `k` nor reset. -/
def leavesAlone (k : RegNum) (s : State) : Prop :=
  ∀ a ∈ s.script.head?, writesNumber k a = false ∧ a ≠ .assertReset

/-- `q` is the divisor the trial division of `n` finds: the smallest odd number from 3 up that divides
`n`, and below the bound (41_factorizer.md R72). -/
def isFoundDivisorBelow (bound : Nat) (n : Int) (q : Nat) : Prop :=
  Odd q ∧ 3 ≤ q ∧ q < bound ∧ (q : Int) ∣ n ∧ ∀ i : Nat, Odd i → 3 ≤ i → i < q → ¬ (i : Int) ∣ n

/-- No candidate below the bound divides `n` (60_exceptions.md R112). -/
def noDivisorBelow (bound : Nat) (n : Int) : Prop :=
  ∀ i : Nat, Odd i → 3 ≤ i → i < bound → ¬ (i : Int) ∣ n

/-- The found divisor with the bound of the specified hardware (00_scope.md R4). -/
def isFoundDivisor (n : Int) (q : Nat) : Prop := isFoundDivisorBelow 100000 n q

/-- No divisor with the bound of the specified hardware (00_scope.md R4). -/
def noDivisorInBound (n : Int) : Prop := noDivisorBelow 100000 n

/-- `n` steps one after the other. -/
def runSteps : Nat → State → Host.Outcome State Fault Refusal
  | 0, s => .next s
  | n + 1, s =>
    match step s with
    | .next t => runSteps n t
    | .fault r => .fault r
    | .refused r => .refused r

end Sys2Proof.Safety
end

