-- ==== Sys2Proof/Certificates/Slice0/Obligations.lean ====
section
/-! DEFINITION. The statements about the model that the provers settle. Operands are read with
`BitVec.toInt` (the spec's `s`) and `BitVec.toNat` (the spec's `u`), results written with
`BitVec.ofInt 64` (the spec's `toW`), so that no statement leans on the model's own reading of them. -/

open Sys2Proof Sys2Proof.Machine Sys2Proof.Safety

/-! Encoding. -/

/-- 30_encoding.md R47: each command has exactly the word the opcode map gives it, and no other word. -/
def Obligations.EachCommandHasExactlyItsWord : Prop :=
  ∀ v : Word,
    (decode v = .ok .bitat ↔ v = 0x0000000000000001#64) ∧
    (decode v = .ok .lmsb ↔ v = 0x0000000000000002#64) ∧
    (decode v = .ok .factor ↔ v = 0x0000000000000003#64) ∧
    (decode v = .ok .modpow ↔ v = 0x0000000000000004#64) ∧
    (decode v = .ok .modinv ↔ v = 0x0000000000000005#64) ∧
    (decode v = .ok .decrypt ↔ v = 0x0000000000000006#64)

/-- 30_encoding.md R45, R46: the decoder and the encoder agree in both directions, for every command and
every one of the `2^64` patterns: a pattern that decodes at all is the encoding of what it decodes to. -/
def Obligations.DecodeAgreesWithEncode : Prop :=
  (∀ i : Instr, i.wellFormed = true → decode (encode i) = .ok i) ∧
  (∀ (v : Word) (i : Instr), decode v = .ok i → i.wellFormed = true ∧ encode i = v)

/-- 30_encoding.md R46, R47, R49 and vectors X4, X7, X8: a few words, read bit by bit. -/
def Obligations.SampleWordsDecode : Prop :=
  decode (0b0001#64) = .ok .bitat ∧
  decode (0b0010#64) = .ok .lmsb ∧
  decode (0b0011#64) = .ok .factor ∧
  decode (0b0100#64) = .ok .modpow ∧
  decode (0b0101#64) = .ok .modinv ∧
  decode (0b0110#64) = .ok .decrypt ∧
  decode (0b0000#64) = .error (.reservedOpcode 0) ∧
  decode (0b0111#64) = .error (.reservedOpcode 7) ∧
  decode (0b00010011#64) = .error .zeroFieldSet ∧
  decode (0x8000000000000003#64) = .error .zeroFieldSet

/-- 30_encoding.md R49: which words are legal, and everything a write of an illegal one to `CMD` does. -/
def Obligations.IllegalWordsCompleteWithIllegalCommand : Prop :=
  ∀ v : Word,
    ((∃ i, decode v = .ok i) ↔ v.toNat / 16 = 0 ∧ 1 ≤ v.toNat % 16 ∧ v.toNat % 16 ≤ 6) ∧
    (¬ (v.toNat / 16 = 0 ∧ 1 ≤ v.toNat % 16 ∧ v.toNat % 16 ≤ 6) →
      ∀ (s : State) (rest : List HostAction), s.script = .present (.regWrite 5 v) :: rest →
        step s = .next { s with script := rest, cmd := v, res0 := 0, res1 := 0, err := 5, done := true })

/-! The register port. -/

/-- 20_memory.md R34: the step at which the host writes a command word to `CMD` stores the word and runs
the decoded command on the state that then stands. What the step adds around `exec`: the host's action
is used up, and `CMD` holds the word. -/
def Obligations.StepRunsDecodedCommand : Prop :=
  ∀ (s : State) (v : Word) (i : Instr) (rest : List HostAction),
    s.script = .present (.regWrite 5 v) :: rest → decode v = .ok i →
      step s = exec i { s with script := rest, cmd := v }

/-- The model's own way to place one command for the next step (log 2): it runs exactly that command and
keeps the host's later actions. -/
def Obligations.PlacedWordRunsNext : Prop :=
  ∀ (s : State) (i : Instr),
    step (s.withFetchWord 64 (encode i).toNat) = exec i { s with cmd := encode i }

/-- 20_memory.md R33: the whole table of `RegWrite(k, v)`. -/
def Obligations.RegWriteTable : Prop :=
  ∀ (s : State) (k : RegNum) (v : Word) (rest : List HostAction),
    s.script = .present (.regWrite k v) :: rest →
      (k = 0 → step s = .next { s with script := rest, opa := v }) ∧
      (k = 1 → step s = .next { s with script := rest, opb := v }) ∧
      (k = 2 → step s = .next { s with script := rest, opc := v }) ∧
      (k = 5 → ∀ i, decode v = .ok i → step s = exec i { s with script := rest, cmd := v }) ∧
      (k = 5 → (∀ i, decode v ≠ .ok i) → step s = .next (failed 5 { s with script := rest, cmd := v })) ∧
      (k = 3 ∨ k = 4 ∨ k = 6 ∨ k = 7 ∨ k = 8 ∨ 9 ≤ k → step s = .next { s with script := rest })

/-- 20_memory.md R32: the whole table of `RegRead(k)`. The pattern goes to the host (`returned`, the
model's own field, log 1); nothing of the block changes. -/
def Obligations.RegReadTable : Prop :=
  ∀ (s : State) (k : RegNum) (rest : List HostAction),
    s.script = .present (.regRead k) :: rest →
      ∃ v : Word, step s = .next { s with script := rest, returned := s.returned ++ [v] } ∧
        (k = 0 → v = s.opa) ∧ (k = 1 → v = s.opb) ∧ (k = 2 → v = s.opc) ∧
        (k = 3 → v = s.res0) ∧ (k = 4 → v = s.res1) ∧ (k = 5 → v = s.cmd) ∧
        (k = 6 → v.getLsbD 0 = s.done ∧ v.extractLsb' 1 3 = s.err ∧ v.extractLsb' 4 60 = 0) ∧
        (k = 7 → v.toNat = 100000) ∧ (k = 8 → v.toNat = 64) ∧
        (9 ≤ k → v = 0)

/-- 10_state.md R15: the pattern of `STATUS` as a number, and its reserved bits. -/
def Obligations.StatusWordValue : Prop :=
  ∀ s : State, (regRead Config.specified 6 s).toNat = s.done.toNat + 2 * s.err.toNat ∧
    ∀ i : Nat, 4 ≤ i → (regRead Config.specified 6 s).getLsbD i = false

/-- 20_memory.md R40 item 1: an operand register reads back what was last written to it, whatever the
host does between, so long as it neither writes that register nor resets. -/
def Obligations.OperandReadsBackLastWrite : Prop :=
  ∀ (s : State) (k : RegNum) (v : Word) (between rest : List HostAction),
    k = 0 ∨ k = 1 ∨ k = 2 →
    (∀ a ∈ between, writesNumber k a = false ∧ a ≠ .assertReset) →
    s.script = .present (.regWrite k v) :: (between ++ .present (.regRead k) :: rest) →
      ∃ t, runSteps (between.length + 2) s = .next t ∧ t.script = rest ∧
        t.returned.getLast? = some v

/-- 20_memory.md R40 item 3: the results and the status stay as the last command left them until the
next write to `CMD` or the next reset. -/
def Obligations.OutputsStandUntilNextCommand : Prop :=
  ∀ (s : State) (between rest : List HostAction),
    (∀ a ∈ between, writesNumber 5 a = false ∧ a ≠ .assertReset) →
    s.script = between ++ rest →
      ∃ t, runSteps between.length s = .next t ∧ t.script = rest ∧ sameOutputs s t ∧ t.cmd = s.cmd

/-- The model's choice (log 3): with no host action left, the block is idle and a step changes nothing. -/
def Obligations.IdleWithoutHostAction : Prop :=
  ∀ s : State, s.script = [] → step s = .next s

/-! Reset. -/

/-- 10_state.md R23: every register after reset, and what each of the sixteen numbers then reads as. -/
def Obligations.ResetValues : Prop :=
  State.reset.opa = 0 ∧ State.reset.opb = 0 ∧ State.reset.opc = 0 ∧ State.reset.res0 = 0 ∧
  State.reset.res1 = 0 ∧ State.reset.cmd = 0 ∧ State.reset.done = false ∧ State.reset.err = 0 ∧
  (List.finRange 16).map (fun k => (regRead Config.specified k State.reset).toNat) =
    [0, 0, 0, 0, 0, 0, 0, 100000, 64, 0, 0, 0, 0, 0, 0, 0]

/-- 70_reset_and_hazards.md R130: asserting the reset input gives every register its reset value, in any
state. That the rest of the script and what the host has received stay is no rule of the spec but the
model's choice (log 4). -/
def Obligations.ResetInputClearsEveryRegister : Prop :=
  ∀ (s : State) (rest : List HostAction), s.script = .assertReset :: rest →
    step s = .next
      { opa := 0, opb := 0, opc := 0, res0 := 0, res1 := 0, cmd := 0, done := false, err := 0,
        script := rest, returned := s.returned }

/-- 70_reset_and_hazards.md R131: reset after a command leaves what reset before it leaves, whatever the
command word: the command cannot be seen afterwards. -/
def Obligations.ResetHidesTheCommand : Prop :=
  ∀ (s : State) (v : Word) (rest : List HostAction),
    s.script = .present (.regWrite 5 v) :: .assertReset :: rest →
      runSteps 2 s = runSteps 1 { s with script := .assertReset :: rest }

/-! Bit Inspector. -/

/-- 40_bit_inspector.md R61: BITAT on every pattern of its operands. -/
def Obligations.BitatReturnsTheIndexedBit : Prop :=
  decode 0x0000000000000001#64 = .ok .bitat ∧ ∀ s : State,
    (0 ≤ s.opb.toInt ∧ s.opb.toInt < 64 →
      exec .bitat s =
        .next (succeeded (BitVec.ofNat 64 (s.opa.toNat / 2 ^ (63 - s.opb.toInt.toNat) % 2)) 0 s)) ∧
    (s.opb.toInt < 0 ∨ 64 ≤ s.opb.toInt → exec .bitat s = .next (failed 4 s))

/-- 40_bit_inspector.md R63: LMSB on every pattern: the sentinel for zero, and for any other value the
number of its leading zero bits. -/
def Obligations.LmsbReturnsTheLeadingIndex : Prop :=
  decode 0x0000000000000002#64 = .ok .lmsb ∧ ∀ s : State,
    (s.opa = 0 → exec .lmsb s = .next (succeeded (BitVec.ofInt 64 (-1)) 0 s)) ∧
    (s.opa ≠ 0 →
      exec .lmsb s = .next (succeeded (BitVec.ofNat 64 (63 - Nat.log 2 s.opa.toNat)) 0 s))

/-- 40_bit_inspector.md R64: the three relations of the two functions. -/
def Obligations.LeftmostBitRelations : Prop :=
  ∀ v : Word,
    (0 ≤ leftmostSetBit v →
      bitAt v (leftmostSetBit v) = some true ∧
      (∀ j : Int, 0 ≤ j → j < leftmostSetBit v → bitAt v j = some false) ∧
      v.toNat = ∑ j ∈ Finset.Icc (leftmostSetBit v).toNat 63,
        (if bitAt v (j : Int) = some true then 2 ^ (63 - j) else 0)) ∧
    (leftmostSetBit v = -1 → ∀ j : Int, 0 ≤ j → j < 64 → bitAt v j = some false) ∧
    (leftmostSetBit v = -1 ∨ (0 ≤ leftmostSetBit v ∧ leftmostSetBit v ≤ 63))

/-- 40_bit_inspector.md R64 items 1 and 2 at the port: LMSB, its result written to `OPB`, then BITAT. -/
def Obligations.BitatOfLmsbIsOne : Prop :=
  ∀ s : State, s.opa ≠ 0 →
    ∃ t u, exec .lmsb s = .next t ∧ exec .bitat { t with opb := t.res0 } = .next u ∧
      u.res0 = 1 ∧ u.err = 0

/-! Integer Factorizer. -/

/-- 41_factorizer.md R71, R72: FACTOR on every operand: the smallest odd divisor from 3 up, with its
exact cofactor, or FactorizationExhausted when the bound holds none. -/
def Obligations.FactorReturnsTheSmallestOddDivisor : Prop :=
  decode 0x0000000000000003#64 = .ok .factor ∧ ∀ s : State,
    (∀ q : Nat, isFoundDivisor s.opa.toInt q →
      ∃ p : Int, p * q = s.opa.toInt ∧ 3 * |p| ≤ |s.opa.toInt| ∧
        exec .factor s = .next (succeeded (BitVec.ofInt 64 p) (BitVec.ofNat 64 q) s)) ∧
    (noDivisorInBound s.opa.toInt → exec .factor s = .next (failed 1 s))

/-- 41_factorizer.md R71, R72: on success the results read back as the exact factorization, and the divisor
is an odd prime below the bound. -/
def Obligations.FactorDivisorIsPrime : Prop :=
  ∀ s : State, ∃ t, exec .factor s = .next t ∧
    (t.err = 0 → t.res0.toInt * t.res1.toInt = s.opa.toInt ∧ Nat.Prime t.res1.toNat ∧
      Odd t.res1.toNat ∧ t.res1.toNat < 100000)

/-- 41_factorizer.md R72: a product of two odd primes, the smaller below the bound, is split into the
larger and the smaller. -/
def Obligations.FactorSplitsSemiprimes : Prop :=
  ∀ (s : State) (p q : Nat), Nat.Prime p → Nat.Prime q → q ≠ 2 → q ≤ p → q < 100000 →
    s.opa.toInt = (p : Int) * q →
      exec .factor s = .next (succeeded (BitVec.ofNat 64 p) (BitVec.ofNat 64 q) s)

/-- 41_factorizer.md R75 items 1 to 4 and 6. -/
def Obligations.FactorCornerCases : Prop :=
  ∀ s : State,
    (s.opa.toInt = 0 → exec .factor s = .next (succeeded 0 3 s)) ∧
    (∀ k : Nat, s.opa.toInt = 2 ^ k ∨ s.opa.toInt = -2 ^ k → exec .factor s = .next (failed 1 s)) ∧
    (∀ q : Nat, Nat.Prime q → q ≠ 2 → q < 100000 → s.opa.toInt = q →
      exec .factor s = .next (succeeded 1 (BitVec.ofNat 64 q) s)) ∧
    (∀ p q : Nat, Nat.Prime p → Nat.Prime q → 100000 ≤ p → 100000 ≤ q → s.opa.toInt = (p : Int) * q →
      exec .factor s = .next (failed 1 s))

/-- 41_factorizer.md R76: the loop runs at most `floor((BOUND-2)/2)` times: cut there, or anywhere later,
it has the same answer, for every bound (00_scope.md R4). -/
def Obligations.FactorIterationBound : Prop :=
  ∀ (bound : Nat) (n : Int) (k : Nat), (bound - 2) / 2 ≤ k →
    trialDivide bound n k 3 = factorizeSemiprime bound n

/-! Modular Exponentiator. -/

/-- 42_modexp.md R87, R81: for an exponent of 2 or more MODPOW computes the mathematical power, for every
modulus and every exponent pattern up to `2^64 - 1`. -/
def Obligations.ModpowIsTheModularPower : Prop :=
  ∀ s : State, 0 ≤ s.opa.toInt → 1 ≤ s.opc.toInt → 2 ≤ s.opb.toNat →
    exec .modpow s =
        .next (succeeded (BitVec.ofInt 64 (s.opa.toInt ^ s.opb.toNat % s.opc.toInt)) 0 s) ∧
      (BitVec.ofInt 64 (s.opa.toInt ^ s.opb.toNat % s.opc.toInt)).toInt =
        s.opa.toInt ^ s.opb.toNat % s.opc.toInt

/-- 42_modexp.md R83, R84: for the exponents 0 and 1 the result is the base itself, not reduced. -/
def Obligations.ModpowShortExponentReturnsBase : Prop :=
  ∀ s : State, 0 ≤ s.opa.toInt → 1 ≤ s.opc.toInt → s.opb = 0 ∨ s.opb = 1 →
    exec .modpow s = .next (succeeded s.opa 0 s)

/-- 42_modexp.md R82: OperandRange exactly for a modulus below 1 or a negative base. -/
def Obligations.ModpowOperandDomain : Prop :=
  ∀ s : State,
    (s.opc.toInt < 1 ∨ s.opa.toInt < 0 → exec .modpow s = .next (failed 4 s)) ∧
    (¬ (s.opc.toInt < 1 ∨ s.opa.toInt < 0) → ∃ r, exec .modpow s = .next (succeeded r 0 s))

/-! Modular Inverse Solver. -/

/-- 43_modinv.md R91, R94: for non-negative coprime operands MODINV completes with the coefficient of
`OPB` in Bezout's identity, within the bound R94 gives for it, so that the pattern reads back as it. -/
def Obligations.ModinvReturnsTheBezoutCoefficient : Prop :=
  ∀ s : State, 0 ≤ s.opa.toInt → 0 ≤ s.opb.toInt → Int.gcd s.opa.toInt s.opb.toInt = 1 →
    ∃ x t : Int, s.opa.toInt * x + s.opb.toInt * t = 1 ∧ 2 * |t| ≤ max 2 s.opa.toInt ∧
      exec .modinv s = .next (succeeded (BitVec.ofInt 64 t) 0 s) ∧ (BitVec.ofInt 64 t).toInt = t

/-- 43_modinv.md R92, R93, and the order of R91: OperandRange before NonInvertibleExponent. -/
def Obligations.ModinvErrors : Prop :=
  ∀ s : State,
    (s.opa.toInt < 0 ∨ s.opb.toInt < 0 → exec .modinv s = .next (failed 4 s)) ∧
    (0 ≤ s.opa.toInt → 0 ≤ s.opb.toInt → Int.gcd s.opa.toInt s.opb.toInt ≠ 1 →
      exec .modinv s = .next (failed 2 s))

/-- 43_modinv.md R95: the caller's one conditional addition gives the inverse in `[0, a)`. -/
def Obligations.ModinvNormalisesByOneAddition : Prop :=
  ∀ s : State, 2 ≤ s.opa.toInt → 0 ≤ s.opb.toInt → Int.gcd s.opa.toInt s.opb.toInt = 1 →
    ∃ t, exec .modinv s = .next t ∧ t.err = 0 ∧
      (let d := if t.res0.toInt < 0 then t.res0.toInt + s.opa.toInt else t.res0.toInt
       0 ≤ d ∧ d < s.opa.toInt ∧ s.opb.toInt * d % s.opa.toInt = 1)

/-- 43_modinv.md R90, R94: every row the loop reaches keeps Bezout's identity, and the loop ends at the
greatest common divisor. -/
def Obligations.EuclidEndsAtTheGcd : Prop :=
  ∀ a b : Int, 0 ≤ a → 0 ≤ b →
    (modInverse a b).1 = Int.gcd a b ∧
      a * (extendedEuclid a b).s + b * (modInverse a b).2 = (modInverse a b).1

/-- 43_modinv.md R97, 70_reset_and_hazards.md R138: fewer than 95 iterations for operands of the width:
cut after 94 of them, or anywhere later, the loop has the same answer. -/
def Obligations.EuclidIterationBound : Prop :=
  ∀ (a b : Int) (k : Nat), 0 ≤ a → 0 ≤ b → a < 2 ^ 63 → b < 2 ^ 63 → 94 ≤ k →
    euclidLoop k { r := a, s := 1, t := 0 } { r := b, s := 0, t := 1 } = extendedEuclid a b

/-! The composition. -/

/-- 44_decrypt.md R100: DECRYPT is FACTOR on `n`, then MODINV on the totient and `e`, then MODPOW on `c`,
the normalised coefficient and `n`, each as its own command, stopping at the first error. -/
def Obligations.DecryptIsTheThreeCommandsInTurn : Prop :=
  ∀ s : State, ∃ f g h : State,
    exec .factor s = .next f ∧
    (f.err ≠ 0 → exec .decrypt s = .next (failed f.err s)) ∧
    (let phi := (f.res0.toInt - 1) * (f.res1.toInt - 1)
     exec .modinv { s with opa := BitVec.ofInt 64 phi } = .next g ∧
     (f.err = 0 → g.err ≠ 0 → exec .decrypt s = .next (failed g.err s)) ∧
     (let d := if g.res0.toInt < 0 then g.res0.toInt + phi else g.res0.toInt
      exec .modpow { s with opa := s.opc, opb := BitVec.ofInt 64 d, opc := s.opa } = .next h ∧
      (f.err = 0 → g.err = 0 → h.err ≠ 0 → exec .decrypt s = .next (failed h.err s)) ∧
      (f.err = 0 → g.err = 0 → h.err = 0 → exec .decrypt s = .next (succeeded h.res0 0 s))))

/-- 44_decrypt.md R102 in part: the range of the totient of the pair the factorizer's function returns. For
`n >= 3` it lies in `[0, n)`, so that it is its own W-bit value; for `n <= 0` it is negative, and that
DECRYPT then ends with OperandRange, before a W-bit value of it is formed, is said by
`DecryptErrorOrder`. -/
def Obligations.TotientNeverWraps : Prop :=
  ∀ n p q : Int, factorizeSemiprime 100000 n = .ok (p, q) →
    totient p q = (p - 1) * (q - 1) ∧
    (3 ≤ n → 1 ≤ p ∧ 3 ≤ q ∧ 0 ≤ totient p q ∧ totient p q < n) ∧
    (n ≤ 0 → p ≤ 0 ∧ totient p q < 0) ∧ (n ≤ 0 ∨ 3 ≤ n) ∧ (n = 9 → totient p q = 4)

/-- 44_decrypt.md R104: which error is reported when several would apply, and that `n < 1` is never the
clause that fails in the last check. -/
def Obligations.DecryptErrorOrder : Prop :=
  ∀ s : State,
    (noDivisorInBound s.opa.toInt → exec .decrypt s = .next (failed 1 s)) ∧
    (∀ (p : Int) (q : Nat), isFoundDivisor s.opa.toInt q → p * q = s.opa.toInt →
      ((p - 1) * (q - 1) < 0 ∨ s.opb.toInt < 0 → exec .decrypt s = .next (failed 4 s)) ∧
      (0 ≤ (p - 1) * (q - 1) → 0 ≤ s.opb.toInt →
        (Int.gcd ((p - 1) * (q - 1)) s.opb.toInt ≠ 1 → exec .decrypt s = .next (failed 2 s)) ∧
        (Int.gcd ((p - 1) * (q - 1)) s.opb.toInt = 1 →
          (s.opa.toInt < 1 ∨ s.opc.toInt < 0 → exec .decrypt s = .next (failed 4 s)) ∧
          ¬ s.opa.toInt < 1)))

/-- 44_decrypt.md R100, R102, R103: where no check fires, DECRYPT raises `c` to an exponent in
`[0, max(phi, 2))` that is inverse to `e` modulo `phi = (p-1)(q-1)`. -/
def Obligations.DecryptRaisesToTheInverseExponent : Prop :=
  ∀ (s : State) (p : Int) (q : Nat), isFoundDivisor s.opa.toInt q → p * q = s.opa.toInt →
    1 ≤ s.opa.toInt → 0 ≤ s.opb.toInt → 0 ≤ s.opc.toInt →
    Int.gcd ((p - 1) * (q - 1)) s.opb.toInt = 1 →
      ∃ d : Nat, (d : Int) < max ((p - 1) * (q - 1)) 2 ∧
        (p - 1) * (q - 1) ∣ s.opb.toInt * d - 1 ∧
        exec .decrypt s = .next (succeeded
          (if d ≤ 1 then s.opc else BitVec.ofInt 64 (s.opc.toInt ^ d % s.opa.toInt)) 0 s)

/-- 44_decrypt.md R105: for a modulus of two distinct odd primes, the smaller below the bound, and a
public exponent coprime to the totient, DECRYPT returns the one `m` in `[0, n)` with `m^e ≡ c`. -/
def Obligations.DecryptRecoversTheUniquePlaintext : Prop :=
  ∀ (s : State) (p q : Nat), Nat.Prime p → Nat.Prime q → q ≠ 2 → q < p → q < 100000 →
    s.opa.toInt = (p : Int) * q → 1 ≤ s.opb.toInt →
    Int.gcd s.opb.toInt (((p : Int) - 1) * ((q : Int) - 1)) = 1 →
    0 ≤ s.opc.toInt → s.opc.toInt < s.opa.toInt →
      ∃ m : Int, exec .decrypt s = .next (succeeded (BitVec.ofInt 64 m) 0 s) ∧
        0 ≤ m ∧ m < s.opa.toInt ∧ m ^ s.opb.toInt.toNat ≡ s.opc.toInt [ZMOD s.opa.toInt] ∧
        ∀ x : Int, 0 ≤ x → x < s.opa.toInt →
          x ^ s.opb.toInt.toNat ≡ s.opc.toInt [ZMOD s.opa.toInt] → x = m

/-- 44_decrypt.md R105, 42_modexp.md R87 and vector V8: MODPOW with the public exponent, its result moved
to `OPC` and the modulus to `OPA`, then DECRYPT: the plaintext comes back. -/
def Obligations.EncryptThenDecryptRoundTrip : Prop :=
  ∀ (s : State) (p q : Nat), Nat.Prime p → Nat.Prime q → q ≠ 2 → q < p → q < 100000 →
    s.opc.toInt = (p : Int) * q → 1 ≤ s.opb.toInt →
    Int.gcd s.opb.toInt (((p : Int) - 1) * ((q : Int) - 1)) = 1 →
    0 ≤ s.opa.toInt → s.opa.toInt < s.opc.toInt →
      ∃ t, exec .modpow s = .next t ∧ t.err = 0 ∧
        exec .decrypt { t with opa := s.opc, opc := t.res0 } =
          .next (succeeded s.opa 0 { t with opa := s.opc, opc := t.res0 })

/-- 44_decrypt.md R105: the ciphertext 0 gives the plaintext 0 for any modulus and exponent, with no
appeal to number theory; where an error is reported the results are zero too. -/
def Obligations.DecryptOfZeroIsZero : Prop :=
  ∀ s : State, s.opc = 0 → ∃ t, exec .decrypt s = .next t ∧ t.res0 = 0 ∧ t.res1 = 0

/-! The whole machine. -/

/-- 70_reset_and_hazards.md R139: every transaction, every command word and every operand value completes:
no step of this machine faults or is refused, from any state. -/
def Obligations.EveryStepCompletes : Prop :=
  ∀ s : State, ∃ t, step s = .next t

/-- 10_state.md R11, 60_exceptions.md R115, R116: a command leaves the operand registers, `CMD` and the
host's side alone, sets `DONE`, and reports a code its rule names (R111, R119), with zero results beside
an error and a zero second result for every command but FACTOR. -/
def Obligations.CommandFrame : Prop :=
  ∀ (i : Instr) (s : State), ∃ t, exec i s = .next t ∧ sameOutsideOutputs s t ∧ t.done = true ∧
    t.err ∈ codesOf i ∧ (t.err ≠ 0 → t.res0 = 0 ∧ t.res1 = 0) ∧ (i ≠ .factor → t.res1 = 0)

/-- 00_scope.md R7, 30_encoding.md R48: what a command writes is a function of the operand registers it
uses and of nothing else: not of the other operand, of `RES0`, `RES1`, `STATUS`, `CMD` or the past. -/
def Obligations.CommandsReadOnlyTheirOperands : Prop :=
  ∀ (i : Instr) (s t : State), sameUsedOperands i s t →
    ∃ s' t', exec i s = .next s' ∧ exec i t = .next t' ∧ sameOutputs s' t'

/-- 20_memory.md R37: repeating a write to `CMD` with the operands unchanged changes nothing more. -/
def Obligations.RepeatedCommandIsIdempotent : Prop :=
  ∀ (s : State) (v : Word) (rest : List HostAction),
    s.script = .present (.regWrite 5 v) :: .present (.regWrite 5 v) :: rest →
      ∃ t, step s = .next t ∧ step t = .next { t with script := rest }

/-- 10_state.md R11: an operand register changes only by a host write to its number and by reset. -/
def Obligations.OperandsChangeOnlyByHostWrite : Prop :=
  ∀ s : State, ∃ t, step s = .next t ∧
    (leavesAlone 0 s → t.opa = s.opa) ∧
    (leavesAlone 1 s → t.opb = s.opb) ∧
    (leavesAlone 2 s → t.opc = s.opc)

/-- 10_state.md R12, R14, R16: `RES0`, `RES1`, `STATUS` and `CMD` change only by a write to `CMD` and by
reset, and a write to `CMD` always leaves the written word in it. -/
def Obligations.OutputsChangeOnlyByCompletion : Prop :=
  ∀ s : State, ∃ t, step s = .next t ∧
    (leavesAlone 5 s → sameOutputs s t ∧ t.cmd = s.cmd) ∧
    (∀ (v : Word) (rest : List HostAction), s.script = .present (.regWrite 5 v) :: rest →
      t.cmd = v ∧ t.done = true)

/-- 10_state.md R15: `DONE` is never cleared except by reset. -/
def Obligations.DoneClearedOnlyByReset : Prop :=
  ∀ s : State, s.done = true → ∃ t, step s = .next t ∧
    (t.done = false ↔ s.script.head? = some .assertReset)

/-- The invariant holds after reset (10_state.md R15, R23). -/
def Obligations.BlockInvAtReset : Prop := BlockInv State.reset

/-- 10_state.md R12, R14, R15; 60_exceptions.md R111, R113, R116, R119: every step from every state that
meets the block's invariant keeps it: only codes the block produces (so never OverflowRisk), zero results
beside an error, everything at its reset value before the first command, and after it a code and a second
result that the word in `CMD` accounts for. -/
def Obligations.EveryStepKeepsBlockInv : Prop :=
  ∀ s t : State, BlockInv s → step s = .next t → BlockInv t

/-! The script notation. -/

/-- 30_encoding.md R53: the whole table of pseudo-instructions, as the host's actions: the operands in
signature order, then the command word. -/
def Obligations.PseudoInstructionsExpand : Prop :=
  ∀ x y z : Int, scriptValue x = true → scriptValue y = true → scriptValue z = true →
    let wr := fun (k : RegNum) (v : Int) => HostAction.present (.regWrite k (BitVec.ofInt 64 v))
    assembleScript (expandPseudo (.bitat x y)) = some [wr 0 x, wr 1 y, wr 5 1] ∧
    assembleScript (expandPseudo (.lmsb x)) = some [wr 0 x, wr 5 2] ∧
    assembleScript (expandPseudo (.factor x)) = some [wr 0 x, wr 5 3] ∧
    assembleScript (expandPseudo (.modpow x y z)) = some [wr 0 x, wr 1 y, wr 2 z, wr 5 4] ∧
    assembleScript (expandPseudo (.modinv x y)) = some [wr 0 x, wr 1 y, wr 5 5] ∧
    assembleScript (expandPseudo (.decrypt x y z)) = some [wr 0 x, wr 1 y, wr 2 z, wr 5 6] ∧
    ∀ i : Instr, assembleScript (expandPseudo (.bare i)) =
      some [HostAction.present (.regWrite 5 (encode i))]

/-- 30_encoding.md R52: a line whose register number is below 16 and whose value is in `-2^63 .. 2^64-1` is
the transaction of the table. The two `none` clauses are the model's choice (log 11): R52 says which
lines exist, and the model gives a line that does not exist no transaction. -/
def Obligations.ScriptLinesAreTransactions : Prop :=
  ∀ (k : Nat) (value : Int),
    (∀ (h : k < 16), -2 ^ 63 ≤ value → value ≤ 2 ^ 64 - 1 →
      lineTransaction (.wr (.numbered k) value) = some (.regWrite ⟨k, h⟩ (BitVec.ofInt 64 value))) ∧
    (∀ (h : k < 16), lineTransaction (.rd (.numbered k)) = some (.regRead ⟨k, h⟩)) ∧
    (16 ≤ k → lineTransaction (.wr (.numbered k) value) = none ∧
      lineTransaction (.rd (.numbered k)) = none) ∧
    (value < -2 ^ 63 ∨ 2 ^ 64 ≤ value → lineTransaction (.wr (.numbered k) value) = none)

/-- 30_encoding.md R53, 20_memory.md R40: a pseudo-instruction played from any state is its command on its
arguments, whatever the registers held. -/
def Obligations.PlayedModpowUsesItsArguments : Prop :=
  ∀ (s : State) (x y z : Int) (l rest : List HostAction),
    assembleScript (expandPseudo (.modpow x y z)) = some l → s.script = l ++ rest →
      runSteps 4 s = exec .modpow
        { s with opa := BitVec.ofInt 64 x, opb := BitVec.ofInt 64 y, opc := BitVec.ofInt 64 z, cmd := 4, script := rest }

/-! The block built with any bound the spec admits. -/

/-- 00_scope.md R4: the machine of every other statement is the build with `BOUND = 100000`. -/
def Obligations.SpecifiedBuildIsTheBlock : Prop :=
  Config.specified.bound = 100000 ∧ (∀ (i : Instr) (s : State), execWith Config.specified i s = exec i s) ∧
    ∀ s : State, stepWith Config.specified s = step s

/-- 00_scope.md R4, 10_state.md R17: in a block built with any admitted bound, register number 7 reads as
that bound under both readings of a pattern, and a write to it is ignored. -/
def Obligations.BoundRegReadsTheBuiltBound : Prop :=
  ∀ (cfg : Config) (s : State) (rest : List HostAction),
    (s.script = .present (.regRead 7) :: rest →
      ∃ v : Word, stepWith cfg s = .next { s with script := rest, returned := s.returned ++ [v] } ∧
        v.toNat = cfg.bound ∧ v.toInt = cfg.bound) ∧
    (∀ v : Word, s.script = .present (.regWrite 7 v) :: rest →
      stepWith cfg s = .next { s with script := rest })

/-- 41_factorizer.md R71, R72; 00_scope.md R4: FACTOR of a block built with any admitted bound. The range of
the bound is what makes the divisor read back from `RES1` as itself. -/
def Obligations.FactorOnEveryBuild : Prop :=
  ∀ (cfg : Config) (s : State),
    (∀ q : Nat, isFoundDivisorBelow cfg.bound s.opa.toInt q →
      ∃ p : Int, p * q = s.opa.toInt ∧
        execWith cfg .factor s = .next (succeeded (BitVec.ofInt 64 p) (BitVec.ofNat 64 q) s) ∧
        (BitVec.ofInt 64 p).toInt = p ∧ (BitVec.ofNat 64 q).toInt = q) ∧
    (noDivisorBelow cfg.bound s.opa.toInt → execWith cfg .factor s = .next (failed 1 s))

/-- 41_factorizer.md R75 item 9: with the smallest admitted bound there is no candidate, so FACTOR, and
DECRYPT with it, end with FactorizationExhausted for every operand. -/
def Obligations.SmallestBoundFactorsNothing : Prop :=
  ∀ (cfg : Config) (s : State), cfg.bound = 3 →
    execWith cfg .factor s = .next (failed 1 s) ∧ execWith cfg .decrypt s = .next (failed 1 s)

/-- 00_scope.md R4, 41_factorizer.md R72: the bound is a ceiling and nothing else. What a command completes
with in one build, unless with FactorizationExhausted, it completes with in every build of a larger
bound. -/
def Obligations.LargerBoundKeepsEveryOutcome : Prop :=
  ∀ (a b : Config) (i : Instr) (s t : State), a.bound ≤ b.bound →
    execWith a i s = .next t → t.err ≠ 1 → execWith b i s = .next t

/-- 00_scope.md R4; 10_state.md R12, R14, R15; 60_exceptions.md R111, R113, R116, R119: in every build every
step completes and keeps the block's invariant. -/
def Obligations.EveryBuildKeepsBlockInv : Prop :=
  ∀ (cfg : Config) (s : State), BlockInv s → ∃ t, stepWith cfg s = .next t ∧ BlockInv t
end

