-- ==== Sys2Proof/Laws/BitInspector.lean ====
section
/-! SUPPORT. What the Bit Inspector's functions compute. -/

namespace Sys2Proof.Machine

/-- The loops' index `W-1-k` is the bit of weight `2^k`. -/
theorem bitAt_index (v : Word) (k : Nat) (h : k < 64) :
    bitAt v ((Config.W : Int) - 1 - k) = some (v.getLsbD k) := by
  have h0 : (0 : Int) ≤ (Config.W : Int) - 1 - k ∧ (Config.W : Int) - 1 - k < Config.W := by
    simp only [Config.W]; omega
  have h1 : Config.W - 1 - ((Config.W : Int) - 1 - k).toNat = k := by
    simp only [Config.W]; omega
  rw [bitAt, if_pos h0, h1]

/-- `bit_at` inside `[0, W)`. -/
theorem bitAt_of_mem (v : Word) (j : Int) (h0 : 0 ≤ j) (h1 : j < 64) :
    bitAt v j = some (v.getLsbD (63 - j.toNat)) := by
  simp [bitAt, h0, h1, Config.W]

/-- `bit_at` has no value outside `[0, W)`. -/
theorem bitAt_outside (v : Word) (j : Int) (h : j < 0 ∨ 64 ≤ j) : bitAt v j = none := by
  rw [bitAt, if_neg]; simp only [Config.W]; omega

/-- The number the low `k+1` bits make, from the low `k` and bit `k`. -/
theorem toNat_mod_succ (v : Word) (k : Nat) :
    v.toNat % 2 ^ (k + 1) = v.toNat % 2 ^ k + (if v.getLsbD k = true then 2 ^ k else 0) := by
  rw [Nat.mod_pow_succ, BitVec.getLsbD, Nat.testBit_eq_decide_div_mod_eq]
  rcases Nat.mod_two_eq_zero_or_one (v.toNat / 2 ^ k) with h | h <;> simp [h]

/-- The scan over the last `k` indices finds the top set bit of the low `k` bits. -/
theorem scanLeftmost_eq (v : Word) (k : Nat) (hk : k ≤ 64) :
    scanLeftmost v k =
      if v.toNat % 2 ^ k = 0 then -1 else 63 - (Nat.log 2 (v.toNat % 2 ^ k) : Int) := by
  induction k with
  | zero => simp [scanLeftmost, Nat.mod_one]
  | succ k ih =>
    rw [scanLeftmost, bitAt_index v k (by omega), toNat_mod_succ, ih (by omega)]
    cases hb : v.getLsbD k with
    | false => simp
    | true =>
      have hlt : v.toNat % 2 ^ k < 2 ^ k := Nat.mod_lt _ (by positivity)
      have hlog : Nat.log 2 (v.toNat % 2 ^ k + 2 ^ k) = k := by
        apply Nat.log_eq_of_pow_le_of_lt_pow <;> [skip; rw [Nat.pow_succ]] <;> omega
      have hpos : 0 < 2 ^ k := by positivity
      simp only [if_true, hlog, Config.W]
      rw [if_neg (by omega)]; norm_num

theorem leftmostSetBit_zero : leftmostSetBit 0 = -1 := by
  simp [leftmostSetBit, scanLeftmost_eq, Config.W]

/-- `leftmost_set_bit` of a non-zero pattern counts its leading zero bits. -/
theorem leftmostSetBit_of_ne_zero (v : Word) (h : v ≠ 0) :
    leftmostSetBit v = 63 - (Nat.log 2 v.toNat : Int) := by
  have hv : v.toNat ≠ 0 := fun h0 => h (BitVec.eq_of_toNat_eq (by simpa using h0))
  rw [leftmostSetBit, scanLeftmost_eq _ _ le_rfl, Nat.mod_eq_of_lt v.isLt, if_neg hv]

theorem log_toNat_lt (v : Word) : Nat.log 2 v.toNat < 64 :=
  Nat.log_lt_of_lt_pow' (by norm_num) v.isLt

end Sys2Proof.Machine
end

