-- ==== Sys2Proof/Laws/Factorizer.lean ====
section
/-! SUPPORT. What the Integer Factorizer's function can answer. -/

namespace Sys2Proof.Machine

open Sys2Proof.Safety

theorem dividesInt_eq_true (q : Nat) (n : Int) : dividesInt q n = true ↔ (q : Int) ∣ n := by
  simp [dividesInt]

/-- The loop's answer is the first divisor in the candidates' order. -/
theorem trialDivide_found (bound : Nat) (n : Int) (d fuel i : Nat)
    (hfuel : d < fuel) (hlt : i + 2 * d < bound) (hdvd : ((i + 2 * d : Nat) : Int) ∣ n)
    (hmin : ∀ k < d, ¬ ((i + 2 * k : Nat) : Int) ∣ n) :
    trialDivide bound n fuel i = .ok (n / (i + 2 * d : Nat), (i + 2 * d : Nat)) := by
  induction d generalizing fuel i with
  | zero =>
    obtain ⟨f, rfl⟩ : ∃ f, fuel = f + 1 := ⟨fuel - 1, by omega⟩
    rw [Nat.mul_zero, Nat.add_zero] at *
    rw [trialDivide, if_pos hlt, if_pos ((dividesInt_eq_true _ _).2 hdvd)]
    rfl
  | succ d ih =>
    obtain ⟨f, rfl⟩ : ∃ f, fuel = f + 1 := ⟨fuel - 1, by omega⟩
    have h0 : ¬ dividesInt i n = true := by
      rw [dividesInt_eq_true]; simpa using hmin 0 (by omega)
    have hshift : ∀ k, i + 2 + 2 * k = i + 2 * (k + 1) := fun k => by ring
    rw [trialDivide, if_pos (by omega), if_neg h0, ih f (i + 2) (by omega) (by omega)
      (by rwa [hshift]) (fun k hk => by rw [hshift]; exact hmin (k + 1) (by omega)), hshift]

/-- Without a divisor among the candidates the loop ends with FactorizationExhausted. -/
theorem trialDivide_exhausted (bound : Nat) (n : Int) (fuel i : Nat)
    (hnone : ∀ k, i + 2 * k < bound → ¬ ((i + 2 * k : Nat) : Int) ∣ n) :
    trialDivide bound n fuel i = .error .factorizationExhausted := by
  induction fuel generalizing i with
  | zero => rfl
  | succ f ih =>
    rw [trialDivide]
    split
    · rename_i hlt
      have h0 : ¬ dividesInt i n = true := by
        rw [dividesInt_eq_true]; simpa using hnone 0 (by omega)
      rw [if_neg h0]
      exact ih (i + 2) fun k hk => by
        have := hnone (k + 1) (by omega)
        rwa [show i + 2 * (k + 1) = i + 2 + 2 * k by ring] at this
    · rfl

/-- Everything the loop can do. -/
theorem trialDivide_cases (bound : Nat) (n : Int) (fuel i : Nat) (hfuel : bound ≤ i + 2 * fuel) :
    (∃ d, i + 2 * d < bound ∧ ((i + 2 * d : Nat) : Int) ∣ n ∧
      (∀ k < d, ¬ ((i + 2 * k : Nat) : Int) ∣ n) ∧
      trialDivide bound n fuel i = .ok (n / (i + 2 * d : Nat), (i + 2 * d : Nat))) ∨
    ((∀ k, i + 2 * k < bound → ¬ ((i + 2 * k : Nat) : Int) ∣ n) ∧
      trialDivide bound n fuel i = .error .factorizationExhausted) := by
  classical
  by_cases h : ∃ d, i + 2 * d < bound ∧ ((i + 2 * d : Nat) : Int) ∣ n
  · have hspec := Nat.find_spec h
    have hmin : ∀ k < Nat.find h, ¬ ((i + 2 * k : Nat) : Int) ∣ n := fun k hk hd =>
      Nat.find_min h hk ⟨by omega, hd⟩
    exact .inl ⟨_, hspec.1, hspec.2, hmin,
      trialDivide_found bound n _ fuel i (by omega) hspec.1 hspec.2 hmin⟩
  · have hnone : ∀ k, i + 2 * k < bound → ¬ ((i + 2 * k : Nat) : Int) ∣ n := fun k hk hd => h ⟨k, hk, hd⟩
    exact .inr ⟨hnone, trialDivide_exhausted bound n fuel i hnone⟩

/-- `factorize_semiprime` with any bound: the found divisor and its cofactor, or no divisor. -/
theorem factorizeSemiprime_cases_below (bound : Nat) (n : Int) :
    (∃ q, isFoundDivisorBelow bound n q ∧ factorizeSemiprime bound n = .ok (n / q, q)) ∨
    (noDivisorBelow bound n ∧ factorizeSemiprime bound n = .error .factorizationExhausted) := by
  rcases trialDivide_cases bound n bound 3 (by omega) with
    ⟨d, hlt, hdvd, hmin, h⟩ | ⟨hnone, h⟩
  · refine .inl ⟨3 + 2 * d, ⟨⟨d + 1, by ring⟩, by omega, hlt, hdvd, ?_⟩, h⟩
    rintro _ ⟨k, rfl⟩ h3 hlt' hd
    refine hmin (k - 1) (by omega) ?_
    rwa [show 3 + 2 * (k - 1) = 2 * k + 1 by omega]
  · refine .inr ⟨?_, h⟩
    rintro _ ⟨k, rfl⟩ h3 hlt' hd
    refine hnone (k - 1) (by omega) ?_
    rwa [show 3 + 2 * (k - 1) = 2 * k + 1 by omega]

/-- `factorize_semiprime` with the specified bound. -/
theorem factorizeSemiprime_cases (n : Int) :
    (∃ q, isFoundDivisor n q ∧ factorizeSemiprime Config.specified.bound n = .ok (n / q, q)) ∨
    (noDivisorInBound n ∧
      factorizeSemiprime Config.specified.bound n = .error .factorizationExhausted) :=
  factorizeSemiprime_cases_below 100000 n

/-- There is at most one found divisor, whatever the bounds. -/
theorem isFoundDivisorBelow_unique {b b' : Nat} {n : Int} {q q' : Nat} (h : isFoundDivisorBelow b n q)
    (h' : isFoundDivisorBelow b' n q') : q = q' := by
  obtain ⟨ho, h3, -, hd, hm⟩ := h
  obtain ⟨ho', h3', -, hd', hm'⟩ := h'
  rcases Nat.lt_trichotomy q q' with hl | he | hl
  · exact absurd hd (hm' q ho h3 hl)
  · exact he
  · exact absurd hd' (hm q' ho' h3' hl)

theorem isFoundDivisor_unique {n : Int} {q q' : Nat} (h : isFoundDivisor n q) (h' : isFoundDivisor n q') :
    q = q' :=
  isFoundDivisorBelow_unique h h'

/-- A larger bound finds the same divisor. -/
theorem isFoundDivisorBelow_mono {b b' : Nat} {n : Int} {q : Nat} (hb : b ≤ b')
    (h : isFoundDivisorBelow b n q) : isFoundDivisorBelow b' n q :=
  ⟨h.1, h.2.1, h.2.2.1.trans_le hb, h.2.2.2⟩

end Sys2Proof.Machine
end

