-- ==== Sys2Proof/Laws/ModExp.lean ====
section
/-! SUPPORT. What the Modular Exponentiator's function computes. -/

namespace Sys2Proof.Machine

/-- One iteration, as one power product. -/
theorem squareMultiply_eq (b m : Int) (E : Word) (k : Nat) (hk : k < 64) (r : Int) :
    squareMultiply b m E ((Config.W : Int) - 1 - k) r =
      r ^ 2 * b ^ (if E.getLsbD k = true then 1 else 0) % m := by
  rw [squareMultiply, bitAt_index E k hk]
  cases E.getLsbD k <;> simp [pow_two, Int.mul_emod]

/-- The loop over the last `k+1` indices, as one power product. -/
theorem modPowLoop_eq (b m : Int) (E : Word) (k : Nat) (hk : k < 64) (r : Int) :
    modPowLoop b m E (k + 1) r = r ^ 2 ^ (k + 1) * b ^ (E.toNat % 2 ^ (k + 1)) % m := by
  induction k generalizing r with
  | zero =>
    rw [modPowLoop, modPowLoop, squareMultiply_eq b m E 0 hk, toNat_mod_succ]
    simp [Nat.mod_one]
  | succ k ih =>
    rw [modPowLoop, ih (by omega), squareMultiply_eq b m E (k + 1) hk, toNat_mod_succ E (k + 1)]
    generalize hd : (if E.getLsbD (k + 1) = true then 1 else 0) = d
    have h2 : (if E.getLsbD (k + 1) = true then 2 ^ (k + 1) else 0) = 2 ^ (k + 1) * d := by
      rw [← hd]; split <;> simp
    have h3 : r ^ 2 ^ (k + 1 + 1) * b ^ (E.toNat % 2 ^ (k + 1) + 2 ^ (k + 1) * d) =
        (r ^ 2 * b ^ d) ^ 2 ^ (k + 1) * b ^ (E.toNat % 2 ^ (k + 1)) := by
      rw [mul_pow, ← pow_mul, ← pow_mul, pow_add b, pow_succ 2 (k + 1), mul_comm 2, mul_comm d]; ring
    rw [h2, h3]
    exact ((Int.mod_modEq _ _).pow _).mul_right _

/-- For an exponent of 2 or more `mod_pow` is the reduced power (42_modexp.md R87). -/
theorem modPow_of_two_le (b m : Int) (E : Word) (h : 2 ≤ E.toNat) :
    modPow b E m = b ^ E.toNat % m := by
  have hE : E ≠ 0 := by rintro rfl; simp at h
  have hlog := log_toNat_lt E
  obtain ⟨k, hk⟩ : ∃ k, Nat.log 2 E.toNat = k + 1 :=
    ⟨Nat.log 2 E.toNat - 1, by have := Nat.log_pos (b := 2) (by norm_num) h; omega⟩
  have hlo : 2 ^ (k + 1) ≤ E.toNat := hk ▸ Nat.pow_log_le_self 2 (by omega)
  have hhi : E.toNat < 2 ^ (k + 1 + 1) := hk ▸ Nat.lt_pow_succ_log_self (by norm_num) _
  have hmod : E.toNat % 2 ^ (k + 1) = E.toNat - 2 ^ (k + 1) := by
    rw [Nat.pow_succ _ (k + 1)] at hhi
    rw [Nat.mod_eq_sub_mod hlo, Nat.mod_eq_of_lt (by omega)]
  have hcount : (Config.W - 1 - (63 - (Nat.log 2 E.toNat : Int))).toNat = k + 1 := by
    simp only [Config.W]; omega
  simp only [modPow, leftmostSetBit_of_ne_zero E hE]
  rw [if_neg (by omega), hcount, modPowLoop_eq _ _ _ _ (by omega), ← pow_add, hmod,
    Nat.add_sub_cancel' hlo]

/-- For the exponents 0 and 1 `mod_pow` is the base (42_modexp.md R83, R84). -/
theorem modPow_short (b m : Int) (E : Word) (h : E = 0 ∨ E = 1) : modPow b E m = b := by
  rcases h with rfl | rfl
  · simp only [modPow, leftmostSetBit_zero, if_true]
  · have h1 : leftmostSetBit 1 = 63 := by decide
    simp only [modPow, h1, Config.W]
    norm_num [modPowLoop]

end Sys2Proof.Machine
end

