-- ==== Sys2Proof/Laws/ModInv.lean ====
section
/-! SUPPORT. What the Modular Inverse Solver's loop keeps and where it ends. -/

namespace Sys2Proof.Machine

/-- What every pair of neighbouring rows keeps: Bezout's identity, remainders that are not negative,
coefficients of opposite sign whose cross product is `a`, and falling remainders after the first pair
(43_modinv.md R94). -/
structure EuclidInv (a b : Int) (x y : EuclidRow) : Prop where
  bezoutX : a * x.s + b * x.t = x.r
  bezoutY : a * y.s + b * y.t = y.r
  nonnegX : 0 ≤ x.r
  nonnegY : 0 ≤ y.r
  cross : x.r * |y.t| + y.r * |x.t| = a
  signs : x.t ≤ 0 ∧ 0 ≤ y.t ∨ 0 ≤ x.t ∧ y.t ≤ 0
  falling : y.r < x.r ∨ x.t = 0 ∧ y.t = 1
  half : y.r = 0 → 2 * |x.t| ≤ |y.t| ∨ |x.t| ≤ 1

/-- The first two rows keep the invariant. -/
theorem euclidInv_start {a b : Int} (ha : 0 ≤ a) (hb : 0 ≤ b) :
    EuclidInv a b { r := a, s := 1, t := 0 } { r := b, s := 0, t := 1 } where
  bezoutX := by simp
  bezoutY := by simp
  nonnegX := ha
  nonnegY := hb
  cross := by simp
  signs := by simp
  falling := by simp
  half := by simp

/-- The next remainder is the remainder of the division. -/
theorem euclidNext_r (x y : EuclidRow) : (euclidNext x y).r = x.r % y.r := by
  simp only [euclidNext, Int.emod_def]; ring

/-- The recurrence keeps the invariant. -/
theorem euclidInv_next {a b : Int} {x y : EuclidRow} (h : EuclidInv a b x y) (hy : y.r ≠ 0) :
    EuclidInv a b y (euclidNext x y) := by
  have hypos : 0 < y.r := lt_of_le_of_ne h.nonnegY (Ne.symm hy)
  have hq : 0 ≤ x.r / y.r := Int.ediv_nonneg h.nonnegX h.nonnegY
  have hr := euclidNext_r x y
  have habs : |(euclidNext x y).t| = |x.t| + x.r / y.r * |y.t| := by
    simp only [euclidNext]
    rcases h.signs with ⟨h1, h2⟩ | ⟨h1, h2⟩
    · rw [abs_of_nonpos (by nlinarith), abs_of_nonpos h1, abs_of_nonneg h2]; ring
    · rw [abs_of_nonneg (by nlinarith), abs_of_nonneg h1, abs_of_nonpos h2]; ring
  have hdiv : y.r * (x.r / y.r) + x.r % y.r = x.r := Int.mul_ediv_add_emod x.r y.r
  refine ⟨h.bezoutY, ?_, h.nonnegY, ?_, ?_, ?_, .inl ?_, ?_⟩
  · simp only [euclidNext]
    linear_combination h.bezoutX - x.r / y.r * h.bezoutY
  · rw [hr]; exact Int.emod_nonneg _ hy
  · rw [habs, hr]
    linear_combination h.cross + |y.t| * hdiv
  · simp only [euclidNext]
    rcases h.signs with ⟨h1, h2⟩ | ⟨h1, h2⟩
    · exact .inr ⟨h2, by nlinarith⟩
    · exact .inl ⟨h2, by nlinarith⟩
  · rw [hr]; exact Int.emod_lt_of_pos _ hypos
  · intro h0
    rw [hr] at h0
    rcases h.falling with hlt | ⟨-, ht⟩
    · have hq2 : 2 ≤ x.r / y.r := by
        by_contra hc
        have : x.r / y.r ≤ 1 := by omega
        nlinarith
      left
      rw [habs]
      nlinarith [abs_nonneg x.t, abs_nonneg y.t]
    · right; simp [ht]

/-- Fuel above the second remainder is never what ends the loop. -/
theorem euclidLoop_fuel (k k' : Nat) (x y : EuclidRow) (hy : 0 ≤ y.r)
    (hk : y.r.toNat < k) (hk' : y.r.toNat < k') : euclidLoop k x y = euclidLoop k' x y := by
  induction k generalizing k' x y with
  | zero => omega
  | succ k ih =>
    obtain ⟨j, rfl⟩ : ∃ j, k' = j + 1 := ⟨k' - 1, by omega⟩
    rw [euclidLoop, euclidLoop]
    split
    · rfl
    · rename_i h
      have h1 := euclidNext_r x y
      have h2 : 0 ≤ x.r % y.r := Int.emod_nonneg _ h
      have h3 : x.r % y.r < y.r := Int.emod_lt_of_pos _ (by omega)
      exact ih j y _ (by omega) (by omega) (by omega)

/-- Everything the loop leaves: it ends at a pair that keeps the invariant, whose second remainder is
zero and whose first is the greatest common divisor. -/
theorem euclidLoop_ends {a b : Int} (k : Nat) (x y : EuclidRow) (h : EuclidInv a b x y)
    (hk : y.r.toNat < k) :
    ∃ z, EuclidInv a b (euclidLoop k x y) z ∧ z.r = 0 ∧
      (euclidLoop k x y).r = Int.gcd x.r y.r := by
  induction k generalizing x y with
  | zero => omega
  | succ k ih =>
    rw [euclidLoop]
    split
    · rename_i h0
      exact ⟨y, h, h0, by rw [h0, Int.gcd_zero_right]; exact (Int.natAbs_of_nonneg h.nonnegX).symm⟩
    · rename_i h0
      have h1 := euclidNext_r x y
      have hypos : 0 < y.r := lt_of_le_of_ne h.nonnegY (Ne.symm h0)
      have h2 : x.r % y.r < y.r := Int.emod_lt_of_pos _ hypos
      have h3 : 0 ≤ x.r % y.r := Int.emod_nonneg _ h0
      obtain ⟨z, hz, hz0, hg⟩ := ih y (euclidNext x y) (euclidInv_next h h0) (by omega)
      exact ⟨z, hz, hz0, by rw [hg, h1, Int.gcd_comm, Int.gcd_emod]⟩

end Sys2Proof.Machine
end

