-- ==== Sys2Proof/Laws/State.lean ====
section
/-! SUPPORT. One lemma per field per update of the state, each true by definition. -/

namespace Sys2Proof.Machine

variable (s : State)

@[simp] theorem setOpa_opa (v : Word) : (s.setOpa v).opa = v := rfl
@[simp] theorem setOpa_opb (v : Word) : (s.setOpa v).opb = s.opb := rfl
@[simp] theorem setOpa_opc (v : Word) : (s.setOpa v).opc = s.opc := rfl
@[simp] theorem setOpa_res0 (v : Word) : (s.setOpa v).res0 = s.res0 := rfl
@[simp] theorem setOpa_res1 (v : Word) : (s.setOpa v).res1 = s.res1 := rfl
@[simp] theorem setOpa_cmd (v : Word) : (s.setOpa v).cmd = s.cmd := rfl
@[simp] theorem setOpa_done (v : Word) : (s.setOpa v).done = s.done := rfl
@[simp] theorem setOpa_err (v : Word) : (s.setOpa v).err = s.err := rfl
@[simp] theorem setOpa_script (v : Word) : (s.setOpa v).script = s.script := rfl
@[simp] theorem setOpa_returned (v : Word) : (s.setOpa v).returned = s.returned := rfl

@[simp] theorem setOpb_opa (v : Word) : (s.setOpb v).opa = s.opa := rfl
@[simp] theorem setOpb_opb (v : Word) : (s.setOpb v).opb = v := rfl
@[simp] theorem setOpb_opc (v : Word) : (s.setOpb v).opc = s.opc := rfl
@[simp] theorem setOpb_res0 (v : Word) : (s.setOpb v).res0 = s.res0 := rfl
@[simp] theorem setOpb_res1 (v : Word) : (s.setOpb v).res1 = s.res1 := rfl
@[simp] theorem setOpb_cmd (v : Word) : (s.setOpb v).cmd = s.cmd := rfl
@[simp] theorem setOpb_done (v : Word) : (s.setOpb v).done = s.done := rfl
@[simp] theorem setOpb_err (v : Word) : (s.setOpb v).err = s.err := rfl
@[simp] theorem setOpb_script (v : Word) : (s.setOpb v).script = s.script := rfl
@[simp] theorem setOpb_returned (v : Word) : (s.setOpb v).returned = s.returned := rfl

@[simp] theorem setOpc_opa (v : Word) : (s.setOpc v).opa = s.opa := rfl
@[simp] theorem setOpc_opb (v : Word) : (s.setOpc v).opb = s.opb := rfl
@[simp] theorem setOpc_opc (v : Word) : (s.setOpc v).opc = v := rfl
@[simp] theorem setOpc_res0 (v : Word) : (s.setOpc v).res0 = s.res0 := rfl
@[simp] theorem setOpc_res1 (v : Word) : (s.setOpc v).res1 = s.res1 := rfl
@[simp] theorem setOpc_cmd (v : Word) : (s.setOpc v).cmd = s.cmd := rfl
@[simp] theorem setOpc_done (v : Word) : (s.setOpc v).done = s.done := rfl
@[simp] theorem setOpc_err (v : Word) : (s.setOpc v).err = s.err := rfl
@[simp] theorem setOpc_script (v : Word) : (s.setOpc v).script = s.script := rfl
@[simp] theorem setOpc_returned (v : Word) : (s.setOpc v).returned = s.returned := rfl

@[simp] theorem setCmd_opa (v : Word) : (s.setCmd v).opa = s.opa := rfl
@[simp] theorem setCmd_opb (v : Word) : (s.setCmd v).opb = s.opb := rfl
@[simp] theorem setCmd_opc (v : Word) : (s.setCmd v).opc = s.opc := rfl
@[simp] theorem setCmd_res0 (v : Word) : (s.setCmd v).res0 = s.res0 := rfl
@[simp] theorem setCmd_res1 (v : Word) : (s.setCmd v).res1 = s.res1 := rfl
@[simp] theorem setCmd_cmd (v : Word) : (s.setCmd v).cmd = v := rfl
@[simp] theorem setCmd_done (v : Word) : (s.setCmd v).done = s.done := rfl
@[simp] theorem setCmd_err (v : Word) : (s.setCmd v).err = s.err := rfl
@[simp] theorem setCmd_script (v : Word) : (s.setCmd v).script = s.script := rfl
@[simp] theorem setCmd_returned (v : Word) : (s.setCmd v).returned = s.returned := rfl

@[simp] theorem setResults_opa (r0 r1 : Word) : (s.setResults r0 r1).opa = s.opa := rfl
@[simp] theorem setResults_opb (r0 r1 : Word) : (s.setResults r0 r1).opb = s.opb := rfl
@[simp] theorem setResults_opc (r0 r1 : Word) : (s.setResults r0 r1).opc = s.opc := rfl
@[simp] theorem setResults_res0 (r0 r1 : Word) : (s.setResults r0 r1).res0 = r0 := rfl
@[simp] theorem setResults_res1 (r0 r1 : Word) : (s.setResults r0 r1).res1 = r1 := rfl
@[simp] theorem setResults_cmd (r0 r1 : Word) : (s.setResults r0 r1).cmd = s.cmd := rfl
@[simp] theorem setResults_done (r0 r1 : Word) : (s.setResults r0 r1).done = s.done := rfl
@[simp] theorem setResults_err (r0 r1 : Word) : (s.setResults r0 r1).err = s.err := rfl
@[simp] theorem setResults_script (r0 r1 : Word) : (s.setResults r0 r1).script = s.script := rfl
@[simp] theorem setResults_returned (r0 r1 : Word) : (s.setResults r0 r1).returned = s.returned := rfl

@[simp] theorem setStatus_opa (e : BitVec 3) : (s.setStatus e).opa = s.opa := rfl
@[simp] theorem setStatus_opb (e : BitVec 3) : (s.setStatus e).opb = s.opb := rfl
@[simp] theorem setStatus_opc (e : BitVec 3) : (s.setStatus e).opc = s.opc := rfl
@[simp] theorem setStatus_res0 (e : BitVec 3) : (s.setStatus e).res0 = s.res0 := rfl
@[simp] theorem setStatus_res1 (e : BitVec 3) : (s.setStatus e).res1 = s.res1 := rfl
@[simp] theorem setStatus_cmd (e : BitVec 3) : (s.setStatus e).cmd = s.cmd := rfl
@[simp] theorem setStatus_done (e : BitVec 3) : (s.setStatus e).done = true := rfl
@[simp] theorem setStatus_err (e : BitVec 3) : (s.setStatus e).err = e := rfl
@[simp] theorem setStatus_script (e : BitVec 3) : (s.setStatus e).script = s.script := rfl
@[simp] theorem setStatus_returned (e : BitVec 3) : (s.setStatus e).returned = s.returned := rfl

@[simp] theorem setScript_opa (l : List HostAction) : (s.setScript l).opa = s.opa := rfl
@[simp] theorem setScript_opb (l : List HostAction) : (s.setScript l).opb = s.opb := rfl
@[simp] theorem setScript_opc (l : List HostAction) : (s.setScript l).opc = s.opc := rfl
@[simp] theorem setScript_res0 (l : List HostAction) : (s.setScript l).res0 = s.res0 := rfl
@[simp] theorem setScript_res1 (l : List HostAction) : (s.setScript l).res1 = s.res1 := rfl
@[simp] theorem setScript_cmd (l : List HostAction) : (s.setScript l).cmd = s.cmd := rfl
@[simp] theorem setScript_done (l : List HostAction) : (s.setScript l).done = s.done := rfl
@[simp] theorem setScript_err (l : List HostAction) : (s.setScript l).err = s.err := rfl
@[simp] theorem setScript_script (l : List HostAction) : (s.setScript l).script = l := rfl
@[simp] theorem setScript_returned (l : List HostAction) : (s.setScript l).returned = s.returned := rfl

@[simp] theorem pushReturned_opa (v : Word) : (s.pushReturned v).opa = s.opa := rfl
@[simp] theorem pushReturned_opb (v : Word) : (s.pushReturned v).opb = s.opb := rfl
@[simp] theorem pushReturned_opc (v : Word) : (s.pushReturned v).opc = s.opc := rfl
@[simp] theorem pushReturned_res0 (v : Word) : (s.pushReturned v).res0 = s.res0 := rfl
@[simp] theorem pushReturned_res1 (v : Word) : (s.pushReturned v).res1 = s.res1 := rfl
@[simp] theorem pushReturned_cmd (v : Word) : (s.pushReturned v).cmd = s.cmd := rfl
@[simp] theorem pushReturned_done (v : Word) : (s.pushReturned v).done = s.done := rfl
@[simp] theorem pushReturned_err (v : Word) : (s.pushReturned v).err = s.err := rfl
@[simp] theorem pushReturned_script (v : Word) : (s.pushReturned v).script = s.script := rfl
@[simp] theorem pushReturned_returned (v : Word) : (s.pushReturned v).returned = s.returned ++ [v] := rfl

@[simp] theorem complete_opa (r0 r1 : Word) : (complete r0 r1 s).opa = s.opa := rfl
@[simp] theorem complete_opb (r0 r1 : Word) : (complete r0 r1 s).opb = s.opb := rfl
@[simp] theorem complete_opc (r0 r1 : Word) : (complete r0 r1 s).opc = s.opc := rfl
@[simp] theorem complete_res0 (r0 r1 : Word) : (complete r0 r1 s).res0 = r0 := rfl
@[simp] theorem complete_res1 (r0 r1 : Word) : (complete r0 r1 s).res1 = r1 := rfl
@[simp] theorem complete_cmd (r0 r1 : Word) : (complete r0 r1 s).cmd = s.cmd := rfl
@[simp] theorem complete_done (r0 r1 : Word) : (complete r0 r1 s).done = true := rfl
@[simp] theorem complete_err (r0 r1 : Word) : (complete r0 r1 s).err = 0 := rfl
@[simp] theorem complete_script (r0 r1 : Word) : (complete r0 r1 s).script = s.script := rfl
@[simp] theorem complete_returned (r0 r1 : Word) : (complete r0 r1 s).returned = s.returned := rfl

@[simp] theorem raiseError_opa (x : ErrorName) : (raiseError x s).opa = s.opa := rfl
@[simp] theorem raiseError_opb (x : ErrorName) : (raiseError x s).opb = s.opb := rfl
@[simp] theorem raiseError_opc (x : ErrorName) : (raiseError x s).opc = s.opc := rfl
@[simp] theorem raiseError_res0 (x : ErrorName) : (raiseError x s).res0 = 0 := rfl
@[simp] theorem raiseError_res1 (x : ErrorName) : (raiseError x s).res1 = 0 := rfl
@[simp] theorem raiseError_cmd (x : ErrorName) : (raiseError x s).cmd = s.cmd := rfl
@[simp] theorem raiseError_done (x : ErrorName) : (raiseError x s).done = true := rfl
@[simp] theorem raiseError_err (x : ErrorName) : (raiseError x s).err = errorCode x := rfl
@[simp] theorem raiseError_script (x : ErrorName) : (raiseError x s).script = s.script := rfl
@[simp] theorem raiseError_returned (x : ErrorName) : (raiseError x s).returned = s.returned := rfl

@[simp] theorem resetBlock_opa : (resetBlock s).opa = 0 := rfl
@[simp] theorem resetBlock_opb : (resetBlock s).opb = 0 := rfl
@[simp] theorem resetBlock_opc : (resetBlock s).opc = 0 := rfl
@[simp] theorem resetBlock_res0 : (resetBlock s).res0 = 0 := rfl
@[simp] theorem resetBlock_res1 : (resetBlock s).res1 = 0 := rfl
@[simp] theorem resetBlock_cmd : (resetBlock s).cmd = 0 := rfl
@[simp] theorem resetBlock_done : (resetBlock s).done = false := rfl
@[simp] theorem resetBlock_err : (resetBlock s).err = 0 := rfl
@[simp] theorem resetBlock_script : (resetBlock s).script = s.script := rfl
@[simp] theorem resetBlock_returned : (resetBlock s).returned = s.returned := rfl

@[simp] theorem reset_opa : State.reset.opa = 0 := rfl
@[simp] theorem reset_opb : State.reset.opb = 0 := rfl
@[simp] theorem reset_opc : State.reset.opc = 0 := rfl
@[simp] theorem reset_res0 : State.reset.res0 = 0 := rfl
@[simp] theorem reset_res1 : State.reset.res1 = 0 := rfl
@[simp] theorem reset_cmd : State.reset.cmd = 0 := rfl
@[simp] theorem reset_done : State.reset.done = false := rfl
@[simp] theorem reset_err : State.reset.err = 0 := rfl
@[simp] theorem reset_script : State.reset.script = [] := rfl
@[simp] theorem reset_returned : State.reset.returned = [] := rfl

end Sys2Proof.Machine
end

