-- ==== Sys2Proof/Laws/Ops.lean ====
section
/-! SUPPORT. What each shared operation can do, said once: the two completions, how a command ends, the
register numbers, reading, writing, issuing, one host action, one step. -/

namespace Sys2Proof.Machine

open Sys2Proof.Safety

/-- `complete` leaves the state R115 writes out. -/
theorem complete_eq_succeeded (r0 r1 : Word) (s : State) : complete r0 r1 s = succeeded r0 r1 s := rfl

/-- `raiseError` leaves the state R116 writes out. -/
theorem raiseError_eq_failed (x : ErrorName) (s : State) : raiseError x s = failed (errorCode x) s := rfl

/-- Every error code is one of R111's. -/
theorem errorCode_cases (x : ErrorName) :
    errorCode x = 1 ∨ errorCode x = 2 ∨ errorCode x = 4 ∨ errorCode x = 5 := by
  cases x <;> decide

theorem errorCode_ne_zero (x : ErrorName) : errorCode x ≠ 0 := by
  cases x <;> decide

@[simp] theorem finish_ok (r0 r1 : Word) (s : State) :
    finish (.ok (r0, r1)) s = .next (complete r0 r1 s) := rfl

@[simp] theorem finish_error (x : ErrorName) (s : State) :
    finish (.error x) s = .next (raiseError x s) := rfl

/-- A command that ends, ends in one of the two completions. -/
theorem finish_cases {r : Except ErrorName (Word × Word)} {s t : State} (h : finish r s = .next t) :
    (∃ r0 r1, r = .ok (r0, r1) ∧ t = complete r0 r1 s) ∨
      ∃ x, r = .error x ∧ t = raiseError x s := by
  rcases r with x | ⟨r0, r1⟩
  · exact .inr ⟨x, rfl, (Host.Outcome.next.inj h).symm⟩
  · exact .inl ⟨r0, r1, rfl, (Host.Outcome.next.inj h).symm⟩

/-- A command always ends. -/
theorem finish_completes (r : Except ErrorName (Word × Word)) (s : State) :
    ∃ t, finish r s = .next t := by
  rcases r with x | ⟨r0, r1⟩
  · exact ⟨_, rfl⟩
  · exact ⟨_, rfl⟩

/-- What a command of a block computes from the three operand registers. -/
def commandResult (cfg : Config) (i : Instr) (opa opb opc : Word) : Except ErrorName (Word × Word) :=
  match i with
  | .bitat => bitatResult opa opb
  | .lmsb => lmsbResult opa
  | .factor => factorResult cfg opa
  | .modpow => modpowResult opa opb opc
  | .modinv => modinvResult opa opb
  | .decrypt => decryptResult cfg opa opb opc

/-- Every command is a function of the operand registers followed by a completion (R7, R9). -/
theorem execWith_eq_finish (cfg : Config) (i : Instr) (s : State) :
    execWith cfg i s = finish (commandResult cfg i s.opa s.opb s.opc) s := by
  cases i <;> rfl

/-- The specified hardware is one of the builds. -/
theorem execWith_specified : execWith Config.specified = exec := by
  funext i s
  cases i <;> rfl

theorem stepWith_specified : stepWith Config.specified = step := by
  funext s
  rw [stepWith, execWith_specified, step]

theorem exec_eq_finish (i : Instr) (s : State) :
    exec i s = finish (commandResult Config.specified i s.opa s.opb s.opc) s := by
  rw [← execWith_specified, execWith_eq_finish]

/-- Every command completes, in one of the two ways. -/
theorem execWith_cases (cfg : Config) (i : Instr) (s : State) :
    (∃ r0 r1, commandResult cfg i s.opa s.opb s.opc = .ok (r0, r1) ∧
      execWith cfg i s = .next (complete r0 r1 s)) ∨
    ∃ x, commandResult cfg i s.opa s.opb s.opc = .error x ∧ execWith cfg i s = .next (raiseError x s) := by
  obtain ⟨t, ht⟩ := finish_completes (commandResult cfg i s.opa s.opb s.opc) s
  rw [execWith_eq_finish]
  rcases finish_cases ht with ⟨r0, r1, hr, rfl⟩ | ⟨x, hr, rfl⟩
  · exact .inl ⟨r0, r1, hr, ht⟩
  · exact .inr ⟨x, hr, ht⟩

theorem exec_cases (i : Instr) (s : State) :
    (∃ r0 r1, commandResult Config.specified i s.opa s.opb s.opc = .ok (r0, r1) ∧
      exec i s = .next (complete r0 r1 s)) ∨
    ∃ x, commandResult Config.specified i s.opa s.opb s.opc = .error x ∧
      exec i s = .next (raiseError x s) := by
  simpa only [execWith_specified] using execWith_cases Config.specified i s

/-- A named register is found under its number. -/
@[simp] theorem regOfNumber_numberOfReg (r : RegName) : regOfNumber (numberOfReg r) = some r := by
  cases r <;> rfl

/-- The reserved numbers have no register. -/
theorem regOfNumber_reserved (k : RegNum) (h : 9 ≤ k) : regOfNumber k = none := by
  revert k; decide

/-- A write of a command word runs the command, of any other word completes with IllegalCommand. -/
theorem issueCommand_cases (run : Commands) (v : Word) (s : State) :
    (∃ i, decode v = .ok i ∧ issueCommand run v s = run i (s.setCmd v)) ∨
      ∃ x, decode v = .error x ∧ issueCommand run v s = .next (raiseError .illegalCommand (s.setCmd v)) := by
  unfold issueCommand
  rcases decode v with x | i
  · exact .inr ⟨x, rfl, rfl⟩
  · exact .inl ⟨i, rfl, rfl⟩

/-- A write of any word to `CMD` ends in a completion over the state that holds the word. -/
theorem issueCommand_completes (cfg : Config) (v : Word) (s : State) :
    (∃ r0 r1, issueCommand (execWith cfg) v s = .next (complete r0 r1 (s.setCmd v))) ∨
      ∃ x, issueCommand (execWith cfg) v s = .next (raiseError x (s.setCmd v)) := by
  rcases issueCommand_cases (execWith cfg) v s with ⟨i, -, hi⟩ | ⟨_, -, hx⟩
  · rcases execWith_cases cfg i (s.setCmd v) with ⟨r0, r1, -, h⟩ | ⟨x, -, h⟩
    · exact .inl ⟨r0, r1, hi.trans h⟩
    · exact .inr ⟨x, hi.trans h⟩
  · exact .inr ⟨_, hx⟩

/-- Everything a register write can do: store an operand, issue a command, or nothing. -/
theorem regWrite_cases (run : Commands) (k : RegNum) (v : Word) (s : State) :
    (k = 0 ∧ regWrite run k v s = .next (s.setOpa v)) ∨
    (k = 1 ∧ regWrite run k v s = .next (s.setOpb v)) ∨
    (k = 2 ∧ regWrite run k v s = .next (s.setOpc v)) ∨
    (k = 5 ∧ regWrite run k v s = issueCommand run v s) ∨
    ((k = 3 ∨ k = 4 ∨ k = 6 ∨ k = 7 ∨ k = 8 ∨ 9 ≤ k) ∧ regWrite run k v s = .next s) := by
  fin_cases k <;> simp [regWrite, regOfNumber]

/-- What a register write leaves alone: it always answers a next state, keeps the host's side, and changes
an operand register, or the outputs with `CMD`, only under their own number. -/
theorem regWrite_frame (cfg : Config) (k : RegNum) (v : Word) (s : State) :
    ∃ t, regWrite (execWith cfg) k v s = .next t ∧ t.script = s.script ∧ t.returned = s.returned ∧
      (k ≠ 0 → t.opa = s.opa) ∧ (k ≠ 1 → t.opb = s.opb) ∧ (k ≠ 2 → t.opc = s.opc) ∧
      (k ≠ 5 → sameOutputs s t ∧ t.cmd = s.cmd) := by
  rcases regWrite_cases (execWith cfg) k v s with ⟨rfl, h⟩ | ⟨rfl, h⟩ | ⟨rfl, h⟩ | ⟨rfl, h⟩ | ⟨-, h⟩
  · exact ⟨_, h, by simp [sameOutputs]⟩
  · exact ⟨_, h, by simp [sameOutputs]⟩
  · exact ⟨_, h, by simp [sameOutputs]⟩
  · rcases issueCommand_completes cfg v s with ⟨r0, r1, h2⟩ | ⟨x, h2⟩
    · exact ⟨_, h.trans h2, by simp⟩
    · exact ⟨_, h.trans h2, by simp⟩
  · exact ⟨_, h, by simp [sameOutputs]⟩

/-- A step at a write. -/
theorem stepWith_write (cfg : Config) {s : State} {k : RegNum} {v : Word} {rest : List HostAction}
    (h : s.script = .present (.regWrite k v) :: rest) :
    stepWith cfg s = regWrite (execWith cfg) k v (s.setScript rest) := by
  simp only [stepWith, runNextAction, h, performAction, performTransaction]

/-- A step at a read. -/
theorem stepWith_read (cfg : Config) {s : State} {k : RegNum} {rest : List HostAction}
    (h : s.script = .present (.regRead k) :: rest) :
    stepWith cfg s = .next ((s.setScript rest).pushReturned (regRead cfg k (s.setScript rest))) := by
  simp only [stepWith, runNextAction, h, performAction, performTransaction]

/-- A step at an asserted reset. -/
theorem stepWith_reset (cfg : Config) {s : State} {rest : List HostAction}
    (h : s.script = .assertReset :: rest) : stepWith cfg s = .next (resetBlock (s.setScript rest)) := by
  simp only [stepWith, runNextAction, h, performAction]

/-- Everything a step of any build can do. -/
theorem stepWith_cases (cfg : Config) (s : State) :
    (s.script = [] ∧ stepWith cfg s = .next s) ∨
    (∃ k rest, s.script = .present (.regRead k) :: rest ∧
      stepWith cfg s = .next ((s.setScript rest).pushReturned (regRead cfg k (s.setScript rest)))) ∨
    (∃ k v rest, s.script = .present (.regWrite k v) :: rest ∧
      stepWith cfg s = regWrite (execWith cfg) k v (s.setScript rest)) ∨
    (∃ rest, s.script = .assertReset :: rest ∧
      stepWith cfg s = .next (resetBlock (s.setScript rest))) := by
  unfold stepWith runNextAction
  rcases s.script with _ | ⟨a, rest⟩
  · exact .inl ⟨rfl, rfl⟩
  · rcases a with t | _
    · rcases t with k | ⟨k, v⟩
      · exact .inr (.inl ⟨k, rest, rfl, rfl⟩)
      · exact .inr (.inr (.inl ⟨k, v, rest, rfl, rfl⟩))
    · exact .inr (.inr (.inr ⟨rest, rfl, rfl⟩))

/-! The same for the specified hardware. -/

theorem step_write {s : State} {k : RegNum} {v : Word} {rest : List HostAction}
    (h : s.script = .present (.regWrite k v) :: rest) :
    step s = regWrite exec k v (s.setScript rest) := by
  rw [← stepWith_specified, stepWith_write _ h, execWith_specified]

theorem step_read {s : State} {k : RegNum} {rest : List HostAction}
    (h : s.script = .present (.regRead k) :: rest) :
    step s = .next ((s.setScript rest).pushReturned (regRead Config.specified k (s.setScript rest))) := by
  rw [← stepWith_specified, stepWith_read _ h]

theorem step_reset {s : State} {rest : List HostAction} (h : s.script = .assertReset :: rest) :
    step s = .next (resetBlock (s.setScript rest)) := by
  rw [← stepWith_specified, stepWith_reset _ h]

theorem step_cases (s : State) :
    (s.script = [] ∧ step s = .next s) ∨
    (∃ k rest, s.script = .present (.regRead k) :: rest ∧
      step s = .next
        ((s.setScript rest).pushReturned (regRead Config.specified k (s.setScript rest)))) ∨
    (∃ k v rest, s.script = .present (.regWrite k v) :: rest ∧
      step s = regWrite exec k v (s.setScript rest)) ∨
    (∃ rest, s.script = .assertReset :: rest ∧ step s = .next (resetBlock (s.setScript rest))) := by
  simpa only [stepWith_specified, execWith_specified] using stepWith_cases Config.specified s

end Sys2Proof.Machine
end

