-- ==== Sys2Proof/Laws/PerInstr.lean ====
section
/-! SUPPORT. What holds of each command as syntax, one lemma for each constructor of Instr. -/

namespace Sys2Proof.Laws.EncodingFields

/-- The word of a command has that command's opcode in `OPCODE` and nothing in `ZERO`
(30_encoding.md R46, R47). -/
def Statement (i : Instr) : Prop :=
  i.wellFormed = true ∧ opcodeField (encode i) = encodeOpcode i ∧ zeroField (encode i) = 0 ∧
    decodeOpcode (encodeOpcode i) = .ok i

theorem bitat : Statement .bitat := by unfold Statement; decide
theorem lmsb : Statement .lmsb := by unfold Statement; decide
theorem factor : Statement .factor := by unfold Statement; decide
theorem modpow : Statement .modpow := by unfold Statement; decide
theorem modinv : Statement .modinv := by unfold Statement; decide
theorem decrypt : Statement .decrypt := by unfold Statement; decide

end Sys2Proof.Laws.EncodingFields
end

