-- ==== Sys2Proof/Tests/Slice0.lean ====
section
/-! SUPPORT. Small tests, each against a vector of spec/95_test_vectors.md or a word written out from the
spec's encoding, and one witness for each statement's hypotheses. -/

namespace Sys2Proof.Tests

open Sys2Proof.Machine Sys2Proof.Safety

/-- The reset state with three operand patterns. -/
def withOperands (a b c : Word) : State := { State.reset with opa := a, opb := b, opc := c }

/-- The same, with signed operands. -/
def withSigned (a b c : Int) : State :=
  withOperands (BitVec.ofInt 64 a) (BitVec.ofInt 64 b) (BitVec.ofInt 64 c)

/-- The reset state with a script. -/
def withScript (l : List HostAction) : State := { State.reset with script := l }

def write (k : RegNum) (v : Word) : HostAction := .present (.regWrite k v)
def read (k : RegNum) : HostAction := .present (.regRead k)

/-- `RES0`, `RES1` and the whole pattern of `STATUS`, as the vectors list them. -/
def outputs (o : Host.Outcome State Fault Refusal) : Option (Word × Word × Word) :=
  match o with
  | .next s => some (s.res0, s.res1, statusWord s.done s.err)
  | .fault _ => none
  | .refused _ => none

/-- What the host has been handed. -/
def returnedOf (o : Host.Outcome State Fault Refusal) : Option (List Word) :=
  match o with
  | .next s => some s.returned
  | .fault _ => none
  | .refused _ => none

/-! The words of 30_encoding.md R46 and R47, bit by bit: sixty bits of `ZERO`, four of `OPCODE`. -/

theorem test_decode_bitat_word :
    decode (0b000000000000000000000000000000000000000000000000000000000000#60 ++ 0b0001#4) =
      .ok .bitat := by decide
theorem test_decode_lmsb_word :
    decode (0b000000000000000000000000000000000000000000000000000000000000#60 ++ 0b0010#4) =
      .ok .lmsb := by decide
theorem test_decode_factor_word :
    decode (0b000000000000000000000000000000000000000000000000000000000000#60 ++ 0b0011#4) =
      .ok .factor := by decide
theorem test_decode_modpow_word :
    decode (0b000000000000000000000000000000000000000000000000000000000000#60 ++ 0b0100#4) =
      .ok .modpow := by decide
theorem test_decode_modinv_word :
    decode (0b000000000000000000000000000000000000000000000000000000000000#60 ++ 0b0101#4) =
      .ok .modinv := by decide
theorem test_decode_decrypt_word :
    decode (0b000000000000000000000000000000000000000000000000000000000000#60 ++ 0b0110#4) =
      .ok .decrypt := by decide
-- X5, X6 and X9
theorem test_decode_rejects_opcode_seven : decode 0x7#64 = .error (.reservedOpcode 7) := by decide
theorem test_decode_rejects_opcode_fifteen : decode 0xF#64 = .error (.reservedOpcode 15) := by decide
theorem test_decode_rejects_bit_thirty_two : decode 0x100000002#64 = .error .zeroFieldSet := by decide
theorem test_table_word_decrypt : decodeTableWord 64 6 = some .decrypt := by decide

/-! WellFormed refuses an ill-formed term, one for each check (30_encoding.md R52). -/

theorem test_wellFormed_refuses_register_sixteen : (ScriptLine.rd (.numbered 16)).wellFormed = false := by
  decide
theorem test_wellFormed_refuses_write_to_sixteen :
    (ScriptLine.wr (.numbered 16) 0).wellFormed = false := by decide
theorem test_wellFormed_refuses_value_above :
    (ScriptLine.wr (.named .opa) (2 ^ 64)).wellFormed = false := by decide
theorem test_wellFormed_refuses_value_below :
    (ScriptLine.wr (.named .opa) (-2 ^ 63 - 1)).wellFormed = false := by decide
theorem test_wellFormed_refuses_pseudo_argument :
    (PseudoCommand.modpow 1 (2 ^ 64) 1).wellFormed = false := by decide
theorem test_wellFormed_takes_the_limits :
    (ScriptLine.wr (.numbered 15) (2 ^ 64 - 1)).wellFormed = true ∧
      (ScriptLine.wr (.numbered 0) (-2 ^ 63)).wellFormed = true := by decide

/-! Two vectors for each command. -/

-- B3: index 63 is the least significant bit
theorem test_bitat_lsb : outputs (exec .bitat (withSigned 1 63 0)) = some (1, 0, 0x1) := by decide
-- B8f: the index is not reduced modulo W
theorem test_bitat_index_sixty_nine :
    outputs (exec .bitat (withSigned (-1) 69 0)) = some (0, 0, 0x9) := by decide
-- L1: the sentinel
theorem test_lmsb_zero :
    outputs (exec .lmsb (withSigned 0 0 0)) = some (0xFFFFFFFFFFFFFFFF, 0, 0x1) := by decide
-- L5
theorem test_lmsb_3233 : outputs (exec .lmsb (withSigned 3233 0 0)) = some (52, 0, 0x1) := by decide
-- F1: the divisor found goes to RES1
theorem test_factor_3233 : outputs (exec .factor (withSigned 3233 0 0)) = some (61, 53, 0x1) := by
  decide
-- F14: a negative operand, exact quotient
theorem test_factor_negative :
    outputs (exec .factor (withSigned (-15) 0 0)) = some (0xFFFFFFFFFFFFFFFB, 3, 0x1) := by decide
-- M1
theorem test_modpow_497 : outputs (exec .modpow (withSigned 4 13 497)) = some (445, 0, 0x1) := by
  decide
-- M18: an exponent pattern of all ones is 2^64 - 1
theorem test_modpow_all_ones_exponent :
    outputs (exec .modpow (withSigned 3 (-1) 1000003)) = some (688776, 0, 0x1) := by decide +kernel
-- I1: a negative coefficient, not normalised
theorem test_modinv_3120_17 :
    outputs (exec .modinv (withSigned 3120 17 0)) = some (0xFFFFFFFFFFFFFE91, 0, 0x1) := by decide
-- I13: a common factor
theorem test_modinv_common_factor :
    outputs (exec .modinv (withSigned 12 8 0)) = some (0, 0, 0x5) := by decide
-- D1: the source's end-to-end example
theorem test_decrypt_65 :
    outputs (exec .decrypt (withSigned 3233 17 2790)) = some (65, 0, 0x1) := by decide +kernel
-- D27: a common factor is reported before the range of c
theorem test_decrypt_error_order :
    outputs (exec .decrypt (withSigned 3233 16 (-5))) = some (0, 0, 0x5) := by decide +kernel

/-! The bound as an argument, at both ends of its range (00_scope.md R4; 41_factorizer.md R75 item 9). -/

def smallestBuild : Config := ⟨3, by decide, by decide⟩
def largestBuild : Config := ⟨2 ^ 63 - 1, by decide, by decide⟩

theorem test_build_smallest_bound :
    outputs (execWith smallestBuild .factor (withSigned 9 0 0)) = some (0, 0, 0x3) := by decide
theorem test_build_largest_bound :
    returnedOf (stepWith largestBuild (withScript [read 7])) = some [0x7FFFFFFFFFFFFFFF] := by decide

/-! The port. -/

-- X7: opcode 3 with bit 4 set is illegal
theorem test_port_illegal_word : outputs (step (withScript [write 5 0x13])) = some (0, 0, 0xB) := by
  decide
-- R32: the width register
theorem test_port_reads_width : returnedOf (step (withScript [read 8])) = some [0x40] := by decide
-- X15: DECRYPT on the reset operands, placed for the next step
theorem test_placed_word_decrypt :
    outputs (step (State.reset.withFetchWord 64 6)) = some (0, 0, 0x9) := by decide
-- R53
theorem test_pseudo_factor :
    assembleScript (expandPseudo (.factor 3233)) = some [write 0 0xCA1, write 5 3] := by decide

/-! Witnesses: states and operands that meet a statement's hypotheses, at the ends of the ranges. -/

theorem witness_DecodeAgreesWithEncode :
    Instr.decrypt.wellFormed = true ∧ decode 6#64 = .ok .decrypt := by decide

theorem witness_IllegalWordsCompleteWithIllegalCommand :
    (withScript [write 5 0]).script = .present (.regWrite 5 0) :: [] ∧
      ¬ ((0#64).toNat / 16 = 0 ∧ 1 ≤ (0#64).toNat % 16 ∧ (0#64).toNat % 16 ≤ 6) ∧
      ¬ ((7#64).toNat / 16 = 0 ∧ 1 ≤ (7#64).toNat % 16 ∧ (7#64).toNat % 16 ≤ 6) ∧
      ¬ ((0x11#64).toNat / 16 = 0 ∧ 1 ≤ (0x11#64).toNat % 16 ∧ (0x11#64).toNat % 16 ≤ 6) := by decide

theorem witness_StepRunsDecodedCommand :
    (withScript [write 5 3, read 3]).script = .present (.regWrite 5 3) :: [read 3] ∧
      decode 3#64 = .ok .factor := by decide

theorem witness_RegWriteTable_ends :
    (withScript [write 15 9]).script = .present (.regWrite 15 9) :: [] ∧ (9 : RegNum) ≤ 15 ∧
      (9 : RegNum) ≤ 9 ∧ (withScript [write 3 9]).script = .present (.regWrite 3 9) :: [] := by decide

theorem witness_RegWriteTable_operands :
    (withScript [write 0 9]).script = .present (.regWrite 0 9) :: [] ∧
      (withScript [write 1 9]).script = .present (.regWrite 1 9) :: [] ∧
      (withScript [write 2 9]).script = .present (.regWrite 2 9) :: [] := by decide

theorem witness_RegWriteTable_cmd :
    (withScript [write 5 6]).script = .present (.regWrite 5 6) :: [] ∧ decode 6#64 = .ok .decrypt ∧
      (withScript [write 5 7]).script = .present (.regWrite 5 7) :: [] ∧
      ∀ i, decode 7#64 ≠ .ok i :=
  ⟨rfl, rfl, rfl, fun i => by cases i <;> decide⟩

theorem witness_RegReadTable :
    (withScript [read 0]).script = .present (.regRead 0) :: [] ∧
      (withScript [read 15]).script = .present (.regRead 15) :: [] ∧ (9 : RegNum) ≤ 15 := by decide

theorem witness_OperandReadsBackLastWrite :
    (∀ a ∈ [write 0 5, write 5 2, read 2], writesNumber 2 a = false ∧ a ≠ .assertReset) ∧
      (withScript [write 2 7, write 0 5, write 5 2, read 2, read 2]).script =
        .present (.regWrite 2 7) :: ([write 0 5, write 5 2, read 2] ++ .present (.regRead 2) :: []) := by
  decide

theorem witness_OutputsStandUntilNextCommand :
    (∀ a ∈ [read 3, write 0 5], writesNumber 5 a = false ∧ a ≠ .assertReset) ∧
      (withScript [read 3, write 0 5, write 5 2]).script = [read 3, write 0 5] ++ [write 5 2] := by
  decide

theorem witness_IdleWithoutHostAction : State.reset.script = [] := by decide

theorem witness_ResetInputClearsEveryRegister :
    (withScript [.assertReset, read 0]).script = .assertReset :: [read 0] := by decide

theorem witness_ResetHidesTheCommand :
    (withScript [write 5 3, .assertReset]).script = .present (.regWrite 5 3) :: .assertReset :: [] := by
  decide

theorem witness_BitatReturnsTheIndexedBit_inside :
    (0 ≤ (withSigned 5 0 0).opb.toInt ∧ (withSigned 5 0 0).opb.toInt < 64) ∧
      (0 ≤ (withSigned 5 63 0).opb.toInt ∧ (withSigned 5 63 0).opb.toInt < 64) := by decide

theorem witness_BitatReturnsTheIndexedBit_outside :
    (withSigned 5 (-1) 0).opb.toInt < 0 ∧ 64 ≤ (withSigned 5 64 0).opb.toInt := by decide

theorem witness_LmsbReturnsTheLeadingIndex :
    (withSigned 0 0 0).opa = 0 ∧ (withSigned 1 0 0).opa ≠ 0 := by decide

theorem witness_LeftmostBitRelations :
    0 ≤ leftmostSetBit 1 ∧ leftmostSetBit 0 = -1 := by decide

theorem witness_BitatOfLmsbIsOne : (withSigned 1 0 0).opa ≠ 0 := by decide

theorem prime_99991 : Nat.Prime 99991 := by norm_num

theorem witness_FactorReturnsTheSmallestOddDivisor_first :
    isFoundDivisor (withSigned (-15) 0 0).opa.toInt 3 :=
  ⟨by decide, by decide, by decide, by decide, fun i _ h h' => absurd h' (by omega)⟩

theorem witness_FactorReturnsTheSmallestOddDivisor_last :
    isFoundDivisor (withSigned 99991 0 0).opa.toInt 99991 := by
  refine ⟨by decide, by decide, by decide, by decide, fun i _ h h' hd => ?_⟩
  have hd' : i ∣ 99991 := by
    rw [show (withSigned 99991 0 0).opa.toInt = ((99991 : Nat) : Int) by decide] at hd
    exact_mod_cast hd
  rcases (Nat.dvd_prime prime_99991).1 hd' with rfl | rfl <;> omega

theorem witness_FactorReturnsTheSmallestOddDivisor_none :
    noDivisorInBound (withSigned 1 0 0).opa.toInt := by
  intro i _ h _ hd
  have hd' : i ∣ 1 := by
    rw [show (withSigned 1 0 0).opa.toInt = ((1 : Nat) : Int) by decide] at hd
    exact_mod_cast hd
  have := Nat.dvd_one.1 hd'
  omega

theorem witness_FactorSplitsSemiprimes :
    Nat.Prime 61 ∧ Nat.Prime 53 ∧ (53 : Nat) ≠ 2 ∧ 53 ≤ 61 ∧ 53 < 100000 ∧
      (withSigned 3233 0 0).opa.toInt = ((61 : Nat) : Int) * (53 : Nat) := by
  refine ⟨by norm_num, by norm_num, by decide, by decide, by decide, by decide⟩

theorem witness_FactorCornerCases_powers :
    (withSigned 0 0 0).opa.toInt = 0 ∧ (withSigned 1 0 0).opa.toInt = 2 ^ 0 ∧
      (withSigned (-2 ^ 63) 0 0).opa.toInt = -2 ^ 63 := by decide

theorem witness_FactorCornerCases_primes :
    Nat.Prime 3 ∧ (withSigned 3 0 0).opa.toInt = (3 : Nat) ∧ Nat.Prime 99991 ∧
      (withSigned 99991 0 0).opa.toInt = (99991 : Nat) ∧ Nat.Prime 100019 ∧ Nat.Prime 100003 ∧
      (withSigned 10002200057 0 0).opa.toInt = ((100019 : Nat) : Int) * (100003 : Nat) := by
  refine ⟨by norm_num, by decide, prime_99991, by decide, by norm_num, by norm_num, by decide⟩

theorem witness_FactorIterationBound : (100000 - 2) / 2 ≤ 49999 := by decide

theorem witness_ModpowIsTheModularPower :
    0 ≤ (withSigned 0 2 1).opa.toInt ∧ 1 ≤ (withSigned 0 2 1).opc.toInt ∧
      2 ≤ (withSigned 0 2 1).opb.toNat := by decide

theorem witness_ModpowShortExponentReturnsBase :
    0 ≤ (withSigned 10 0 3).opa.toInt ∧ 1 ≤ (withSigned 10 0 3).opc.toInt ∧
      (withSigned 10 0 3).opb = 0 ∧ (withSigned 10 1 3).opb = 1 := by decide

theorem witness_ModpowOperandDomain :
    (withSigned 5 3 0).opc.toInt < 1 ∧ (withSigned (-1) 3 7).opa.toInt < 0 ∧
      ¬ ((withSigned 0 0 1).opc.toInt < 1 ∨ (withSigned 0 0 1).opa.toInt < 0) := by decide

theorem witness_ModinvReturnsTheBezoutCoefficient :
    0 ≤ (withSigned 0 1 0).opa.toInt ∧ 0 ≤ (withSigned 0 1 0).opb.toInt ∧
      Int.gcd (withSigned 0 1 0).opa.toInt (withSigned 0 1 0).opb.toInt = 1 := by decide

theorem witness_ModinvErrors :
    (withSigned (-1) 5 0).opa.toInt < 0 ∧ (withSigned 5 (-1) 0).opb.toInt < 0 ∧
      0 ≤ (withSigned 0 0 0).opa.toInt ∧ 0 ≤ (withSigned 0 0 0).opb.toInt ∧
      Int.gcd (withSigned 0 0 0).opa.toInt (withSigned 0 0 0).opb.toInt ≠ 1 := by decide

theorem witness_ModinvNormalisesByOneAddition :
    2 ≤ (withSigned 2 1 0).opa.toInt ∧ 0 ≤ (withSigned 2 1 0).opb.toInt ∧
      Int.gcd (withSigned 2 1 0).opa.toInt (withSigned 2 1 0).opb.toInt = 1 := by decide

theorem witness_EuclidEndsAtTheGcd : (0 : Int) ≤ 3120 ∧ (0 : Int) ≤ 17 := by decide

theorem witness_EuclidIterationBound :
    (0 : Int) ≤ 2 ^ 63 - 1 ∧ (0 : Int) ≤ 2 ^ 63 - 2 ∧ (2 : Int) ^ 63 - 1 < 2 ^ 63 ∧
      (2 : Int) ^ 63 - 2 < 2 ^ 63 ∧ 94 ≤ 94 := by decide

theorem witness_DecryptIsTheThreeCommandsInTurn_success :
    outputs (exec .factor (withSigned 15 7 8)) = some (5, 3, 0x1) ∧
      outputs (exec .modinv (withSigned 8 7 8)) = some (0xFFFFFFFFFFFFFFFF, 0, 0x1) ∧
      outputs (exec .modpow (withSigned 8 7 15)) = some (2, 0, 0x1) := by decide

theorem witness_DecryptIsTheThreeCommandsInTurn_errors :
    outputs (exec .factor (withSigned 1 7 8)) = some (0, 0, 0x3) ∧
      outputs (exec .modinv (withSigned 8 4 8)) = some (0, 0, 0x5) ∧
      outputs (exec .modpow (withSigned (-8) 7 15)) = some (0, 0, 0x9) := by decide +kernel

theorem witness_TotientNeverWraps :
    factorizeSemiprime 100000 9 = .ok (3, 3) ∧ factorizeSemiprime 100000 0 = .ok (0, 3) ∧
      factorizeSemiprime 100000 3 = .ok (1, 3) := by decide

theorem foundDivisor_3 {n : Int} (h : (3 : Int) ∣ n) : isFoundDivisor n 3 :=
  ⟨by decide, by decide, by decide, h, fun i _ h h' => absurd h' (by omega)⟩

theorem witness_DecryptErrorOrder_totient :
    isFoundDivisor (withSigned 0 17 5).opa.toInt 3 ∧ (0 : Int) * (3 : Nat) = (withSigned 0 17 5).opa.toInt ∧
      ((0 : Int) - 1) * ((3 : Nat) - 1) < 0 ∧ (withSigned 15 (-1) 5).opb.toInt < 0 :=
  ⟨foundDivisor_3 (by decide), by decide, by decide, by decide⟩

theorem witness_DecryptErrorOrder_later :
    isFoundDivisor (withSigned 15 4 5).opa.toInt 3 ∧ (5 : Int) * (3 : Nat) = (withSigned 15 4 5).opa.toInt ∧
      0 ≤ ((5 : Int) - 1) * ((3 : Nat) - 1) ∧ 0 ≤ (withSigned 15 4 5).opb.toInt ∧
      Int.gcd (((5 : Int) - 1) * ((3 : Nat) - 1)) (withSigned 15 4 5).opb.toInt ≠ 1 ∧
      Int.gcd (((5 : Int) - 1) * ((3 : Nat) - 1)) (withSigned 15 7 (-1)).opb.toInt = 1 ∧
      (withSigned 15 7 (-1)).opc.toInt < 0 :=
  ⟨foundDivisor_3 (by decide), by decide, by decide, by decide, by decide, by decide, by decide⟩

theorem witness_DecryptRaisesToTheInverseExponent :
    isFoundDivisor (withSigned 15 7 8).opa.toInt 3 ∧ (5 : Int) * (3 : Nat) = (withSigned 15 7 8).opa.toInt ∧
      1 ≤ (withSigned 15 7 8).opa.toInt ∧ 0 ≤ (withSigned 15 7 8).opb.toInt ∧
      0 ≤ (withSigned 15 7 8).opc.toInt ∧
      Int.gcd (((5 : Int) - 1) * ((3 : Nat) - 1)) (withSigned 15 7 8).opb.toInt = 1 :=
  ⟨foundDivisor_3 (by decide), by decide, by decide, by decide, by decide, by decide⟩

-- e = 1: the coefficient, and so the exponent, is 1
theorem witness_DecryptRaisesToTheInverseExponent_short :
    isFoundDivisor (withSigned 15 1 20).opa.toInt 3 ∧
      (5 : Int) * (3 : Nat) = (withSigned 15 1 20).opa.toInt ∧
      Int.gcd (((5 : Int) - 1) * ((3 : Nat) - 1)) (withSigned 15 1 20).opb.toInt = 1 ∧
      (modInverse 8 1).2 = 1 ∧ outputs (exec .decrypt (withSigned 15 1 20)) = some (20, 0, 0x1) :=
  ⟨foundDivisor_3 (by decide), by decide, by decide, by decide, by decide⟩

theorem witness_DecryptRecoversTheUniquePlaintext :
    Nat.Prime 61 ∧ Nat.Prime 53 ∧ (53 : Nat) ≠ 2 ∧ 53 < 61 ∧ 53 < 100000 ∧
      (withSigned 3233 17 2790).opa.toInt = ((61 : Nat) : Int) * (53 : Nat) ∧
      1 ≤ (withSigned 3233 17 2790).opb.toInt ∧
      Int.gcd (withSigned 3233 17 2790).opb.toInt ((((61 : Nat) : Int) - 1) * (((53 : Nat) : Int) - 1)) = 1 ∧
      0 ≤ (withSigned 3233 17 2790).opc.toInt ∧
      (withSigned 3233 17 2790).opc.toInt < (withSigned 3233 17 2790).opa.toInt := by
  refine ⟨by norm_num, by norm_num, by decide, by decide, by decide, by decide, by decide, by decide,
    by decide, by decide⟩

theorem witness_EncryptThenDecryptRoundTrip :
    Nat.Prime 61 ∧ Nat.Prime 53 ∧ (53 : Nat) ≠ 2 ∧ 53 < 61 ∧ 53 < 100000 ∧
      (withSigned 65 17 3233).opc.toInt = ((61 : Nat) : Int) * (53 : Nat) ∧
      1 ≤ (withSigned 65 17 3233).opb.toInt ∧
      Int.gcd (withSigned 65 17 3233).opb.toInt ((((61 : Nat) : Int) - 1) * (((53 : Nat) : Int) - 1)) = 1 ∧
      0 ≤ (withSigned 65 17 3233).opa.toInt ∧
      (withSigned 65 17 3233).opa.toInt < (withSigned 65 17 3233).opc.toInt := by
  refine ⟨by norm_num, by norm_num, by decide, by decide, by decide, by decide, by decide, by decide,
    by decide, by decide⟩

theorem witness_DecryptOfZeroIsZero : (withSigned 3233 17 0).opc = 0 := by decide

theorem witness_CommandsReadOnlyTheirOperands :
    sameUsedOperands .lmsb (withSigned 5 1 2) (withSigned 5 3 4) := rfl

theorem witness_RepeatedCommandIsIdempotent :
    (withScript [write 5 2, write 5 2]).script =
      .present (.regWrite 5 2) :: .present (.regWrite 5 2) :: [] := by decide

theorem leavesAlone_read (k j : RegNum) (l : List HostAction) : leavesAlone k (withScript (read j :: l)) := by
  intro a ha
  obtain rfl : read j = a := by simpa [withScript] using ha
  exact ⟨rfl, by simp [read]⟩

theorem witness_OperandsChangeOnlyByHostWrite :
    leavesAlone 0 (withScript [read 0]) ∧ leavesAlone 1 (withScript [read 0]) ∧
      leavesAlone 2 (withScript [read 0]) :=
  ⟨leavesAlone_read _ _ _, leavesAlone_read _ _ _, leavesAlone_read _ _ _⟩

theorem witness_OutputsChangeOnlyByCompletion :
    leavesAlone 5 (withScript [read 0]) ∧
      (withScript [write 5 0]).script = .present (.regWrite 5 0) :: [] :=
  ⟨leavesAlone_read _ _ _, rfl⟩

theorem witness_DoneClearedOnlyByReset :
    { withScript [.assertReset] with done := true }.done = true ∧
      { withScript [.assertReset] with done := true }.script.head? = some .assertReset := by decide

theorem witness_EveryStepKeepsBlockInv : BlockInv State.reset ∧ step State.reset = .next State.reset :=
  ⟨⟨.inl rfl, fun h => absurd rfl h, fun _ => ⟨rfl, rfl, rfl, rfl⟩, fun h => absurd h (by decide),
    fun h => absurd h (by decide), fun _ => rfl⟩, rfl⟩

theorem witness_PseudoInstructionsExpand :
    scriptValue (-2 ^ 63) = true ∧ scriptValue (2 ^ 64 - 1) = true ∧ scriptValue 0 = true := by decide

theorem witness_ScriptLinesAreTransactions :
    15 < 16 ∧ (-2 : Int) ^ 63 ≤ -2 ^ 63 ∧ (2 : Int) ^ 64 - 1 ≤ 2 ^ 64 - 1 ∧ 16 ≤ 16 ∧
      (-2 ^ 63 - 1 : Int) < -2 ^ 63 ∧ (2 : Int) ^ 64 ≤ 2 ^ 64 := by decide

theorem witness_PlayedModpowUsesItsArguments :
    assembleScript (expandPseudo (.modpow 4 13 497)) =
        some [write 0 4, write 1 13, write 2 497, write 5 4] ∧
      (withScript [write 0 4, write 1 13, write 2 497, write 5 4]).script =
        [write 0 4, write 1 13, write 2 497, write 5 4] ++ [] := by decide

theorem witness_BoundRegReadsTheBuiltBound :
    (withScript [read 7]).script = .present (.regRead 7) :: [] ∧
      (withScript [write 7 5]).script = .present (.regWrite 7 5) :: [] := by decide

theorem witness_FactorOnEveryBuild :
    isFoundDivisorBelow 4 (withSigned (-15) 0 0).opa.toInt 3 ∧
      noDivisorBelow 3 (withSigned (-15) 0 0).opa.toInt ∧ largestBuild.bound = 9223372036854775807 :=
  ⟨⟨by decide, by decide, by decide, by decide, fun _ _ h h' => absurd h' (by omega)⟩,
    fun _ _ h h' => absurd h' (by omega), by decide⟩

theorem witness_SmallestBoundFactorsNothing : smallestBuild.bound = 3 := rfl

theorem witness_LargerBoundKeepsEveryOutcome :
    Config.specified.bound ≤ largestBuild.bound ∧
      execWith Config.specified .factor (withSigned 15 0 0) =
        .next { withSigned 15 0 0 with res0 := 5, res1 := 3, done := true } ∧
      { withSigned 15 0 0 with res0 := 5, res1 := 3, done := true }.err ≠ 1 :=
  ⟨by decide, rfl, by decide⟩

theorem witness_EveryBuildKeepsBlockInv : BlockInv State.reset :=
  witness_EveryStepKeepsBlockInv.1

end Sys2Proof.Tests
end

section
/-! Facts about the decoder and the commands' functions that the statements about every build share. -/

namespace Sys2Proof.Machine

open Sys2Proof.Safety

/-! The decoder (30_encoding.md R46, R47). -/

/-- `CMDW` is its two fields and nothing else (R46). -/
theorem zeroField_append_opcodeField (v : Word) : zeroField v ++ opcodeField v = v := by
  rw [zeroField, opcodeField, BitVec.extractLsb'_append_extractLsb'_eq_extractLsb' (by rfl)]
  exact BitVec.extractLsb'_eq_self

theorem encodeOpcode_of_decodeOpcode {op : BitVec 4} {i : Instr} (h : decodeOpcode op = .ok i) :
    op = encodeOpcode i := by
  unfold decodeOpcode at h
  split at h <;> cases h <;> exact BitVec.eq_of_toNat_eq ‹_›

/-- A word that decodes is the command word of what it decodes to. -/
theorem eq_encode_of_decode {v : Word} {i : Instr} (h : decode v = .ok i) : v = encode i := by
  unfold decode at h
  split at h
  next hzero =>
    have hop := encodeOpcode_of_decodeOpcode h
    rw [← zeroField_append_opcodeField v, hzero, hop]
    cases i <;> rfl
  next => cases h

/-! What the commands' functions answer (00_scope.md R9; 60_exceptions.md R111, R119). -/

/-- MODINV as its two checks in order (43_modinv.md R91). -/
theorem modinvResult_eq (opa opb : Word) :
    modinvResult opa opb =
      if signedValue opa < 0 ∨ signedValue opb < 0 then .error .operandRange
      else if (modInverse (signedValue opa) (signedValue opb)).1 = 1 then
        .ok (toW (modInverse (signedValue opa) (signedValue opb)).2, 0)
      else .error .nonInvertibleExponent := rfl

/-- The checks of DECRYPT after the factorizer, in order (44_decrypt.md R104). -/
theorem decryptWithTotient_eq (phi n e c : Int) :
    decryptWithTotient phi n e c =
      if phi < 0 ∨ e < 0 then .error .operandRange
      else if (modInverse phi e).1 = 1 then
        if n < 1 ∨ c < 0 then .error .operandRange
        else .ok (modPow c (toW (normaliseExponent phi (modInverse phi e).2)) n)
      else .error .nonInvertibleExponent := rfl

/-- The factorizer has one error. -/
theorem factorizeSemiprime_error {bound : Nat} {n : Int} {x : ErrorName}
    (h : factorizeSemiprime bound n = .error x) : x = .factorizationExhausted := by
  rcases factorizeSemiprime_cases_below bound n with ⟨q, -, hq⟩ | ⟨-, hx⟩
  · rw [hq] at h; cases h
  · rw [hx] at h; cases h; rfl

/-- After the factorizer DECRYPT can report the two errors of the later checks (44_decrypt.md R104). -/
theorem decryptWithTotient_error {phi n e c : Int} {x : ErrorName}
    (h : decryptWithTotient phi n e c = .error x) : x = .operandRange ∨ x = .nonInvertibleExponent := by
  rw [decryptWithTotient_eq] at h
  split_ifs at h <;> cases h
  · exact .inl rfl
  · exact .inl rfl
  · exact .inr rfl

/-- DECRYPT's errors are the factorizer's and those of the later checks. -/
theorem decryptValue_error {bound : Nat} {n e c : Int} {x : ErrorName}
    (h : decryptValue bound n e c = .error x) :
    x = .factorizationExhausted ∨ x = .operandRange ∨ x = .nonInvertibleExponent := by
  unfold decryptValue at h
  split at h
  next => exact .inr (decryptWithTotient_error h)
  next hx => cases h; exact .inl (factorizeSemiprime_error hx)

/-- A command that fails reports a code its rule names (60_exceptions.md R119). -/
theorem errorCode_mem_codesOf {cfg : Config} {i : Instr} {a b c : Word} {x : ErrorName}
    (h : commandResult cfg i a b c = .error x) : errorCode x ∈ codesOf i := by
  cases i with
  | bitat =>
    simp only [commandResult, bitatResult] at h
    split at h <;> cases h
    decide
  | lmsb => cases h
  | factor =>
    simp only [commandResult, factorResult] at h
    split at h <;> cases h
    next hx => cases factorizeSemiprime_error hx; decide
  | modpow =>
    simp only [commandResult, modpowResult] at h
    split at h <;> cases h
    decide
  | modinv =>
    simp only [commandResult, modinvResult_eq] at h
    split_ifs at h <;> cases h <;> decide
  | decrypt =>
    simp only [commandResult, decryptResult] at h
    split at h <;> cases h
    next hx => rcases decryptValue_error hx with rfl | rfl | rfl <;> decide

/-- FACTOR is the one command with a second result (10_state.md R12; 30_encoding.md R48). -/
theorem second_result_eq_zero {cfg : Config} {i : Instr} {a b c r0 r1 : Word}
    (h : commandResult cfg i a b c = .ok (r0, r1)) (hi : i ≠ .factor) : r1 = 0 := by
  cases i with
  | bitat =>
    simp only [commandResult, bitatResult] at h
    split at h <;> cases h
    rfl
  | lmsb => cases h; rfl
  | factor => exact absurd rfl hi
  | modpow =>
    simp only [commandResult, modpowResult] at h
    split at h <;> cases h
    rfl
  | modinv =>
    simp only [commandResult, modinvResult_eq] at h
    split_ifs at h
    cases h
    rfl
  | decrypt =>
    simp only [commandResult, decryptResult] at h
    split at h <;> cases h
    rfl

theorem zero_mem_codesOf (i : Instr) : 0 ∈ codesOf i := by cases i <;> decide

theorem legalErrorCode_of_mem_codesOf (i : Instr) : ∀ e ∈ codesOf i, legalErrorCode e := by
  cases i <;> decide

end Sys2Proof.Machine
end

section
/-! The block's invariant: it speaks of the outputs and `CMD` only, and every completion establishes it. -/

namespace Sys2Proof.Safety

open Sys2Proof.Machine

/-- What writes neither the outputs nor `CMD` keeps the invariant. -/
theorem BlockInv.of_sameOutputs {s t : State} (h : BlockInv s) (hout : sameOutputs s t)
    (hcmd : t.cmd = s.cmd) : BlockInv t := by
  obtain ⟨hres0, hres1, herr, hdone⟩ := hout
  constructor <;> simp only [← hres0, ← hres1, ← herr, ← hdone, hcmd]
  exacts [h.errLegal, h.errZeroResults, h.idleBeforeFirst, h.codeOfCommand, h.codeOfIllegalWord,
    h.secondResult]

/-- After a completion the invariant is what the command in `CMD` may leave (R116, R119; R12). -/
theorem BlockInv.of_command {t : State} {i : Instr} (hi : decode t.cmd = .ok i) (hdone : t.done = true)
    (herr : t.err ∈ codesOf i) (hzero : t.err ≠ 0 → t.res0 = 0 ∧ t.res1 = 0)
    (hres1 : i ≠ .factor → t.res1 = 0) : BlockInv t where
  errLegal := legalErrorCode_of_mem_codesOf i _ herr
  errZeroResults := hzero
  idleBeforeFirst h := by simp [hdone] at h
  codeOfCommand _ j hj := by
    cases hi.symm.trans hj
    exact herr
  codeOfIllegalWord _ h := absurd hi (h i)
  secondResult hcmd := hres1 fun hf => hcmd (by rw [eq_encode_of_decode hi, hf]; rfl)

/-- The reset input establishes the invariant (10_state.md R23). -/
theorem blockInv_resetBlock (s : State) : BlockInv (resetBlock s) := by
  refine ⟨.inl rfl, fun h => absurd rfl h, fun _ => ⟨rfl, rfl, rfl, rfl⟩, ?_, ?_, fun _ => rfl⟩
  all_goals
    intro h
    cases h

/-- IllegalCommand establishes the invariant for a word that is no command (60_exceptions.md R118). -/
theorem blockInv_illegalCommand {s : State} {x : DecodeReject} (h : decode s.cmd = .error x) :
    BlockInv (raiseError .illegalCommand s) where
  errLegal := (by decide : legalErrorCode 5)
  errZeroResults _ := ⟨rfl, rfl⟩
  idleBeforeFirst hd := by cases hd
  codeOfCommand _ i hi := by cases h.symm.trans hi
  codeOfIllegalWord _ _ := rfl
  secondResult _ := rfl

/-- The command that stands in `CMD` completes and establishes the invariant, from any state. -/
theorem execWith_blockInv (cfg : Config) {i : Instr} {s : State} (hi : decode s.cmd = .ok i) :
    ∃ t, execWith cfg i s = .next t ∧ BlockInv t := by
  rcases execWith_cases cfg i s with ⟨r0, r1, hr, h⟩ | ⟨x, hx, h⟩
  · exact ⟨_, h, .of_command hi rfl (zero_mem_codesOf i) (fun h0 => absurd rfl h0)
      (second_result_eq_zero hr)⟩
  · exact ⟨_, h, .of_command hi rfl (errorCode_mem_codesOf hx) (fun _ => ⟨rfl, rfl⟩) fun _ => rfl⟩

/-- A write of any word to `CMD` completes and establishes the invariant, from any state. -/
theorem issueCommand_blockInv (cfg : Config) (v : Word) (s : State) :
    ∃ t, issueCommand (execWith cfg) v s = .next t ∧ BlockInv t := by
  rcases issueCommand_cases (execWith cfg) v s with ⟨i, hi, h⟩ | ⟨x, hx, h⟩
  · rw [h]
    exact execWith_blockInv cfg hi
  · exact ⟨_, h, blockInv_illegalCommand hx⟩

/-- A register write completes and keeps the invariant. -/
theorem regWrite_blockInv (cfg : Config) (k : RegNum) (v : Word) {s : State} (hs : BlockInv s) :
    ∃ t, regWrite (execWith cfg) k v s = .next t ∧ BlockInv t := by
  by_cases hk : k = 5
  · subst hk
    exact issueCommand_blockInv cfg v s
  · obtain ⟨t, ht, -, -, -, -, -, hframe⟩ := regWrite_frame cfg k v s
    obtain ⟨hout, hcmd⟩ := hframe hk
    exact ⟨t, ht, hs.of_sameOutputs hout hcmd⟩

/-- A step of any build completes and keeps the invariant. -/
theorem stepWith_blockInv (cfg : Config) {s : State} (hs : BlockInv s) :
    ∃ t, stepWith cfg s = .next t ∧ BlockInv t := by
  have hrest (l : List HostAction) : BlockInv (s.setScript l) :=
    hs.of_sameOutputs ⟨rfl, rfl, rfl, rfl⟩ rfl
  rcases stepWith_cases cfg s with ⟨-, h⟩ | ⟨k, rest, -, h⟩ | ⟨k, v, rest, -, h⟩ | ⟨rest, -, h⟩
  · exact ⟨s, h, hs⟩
  · exact ⟨_, h, (hrest rest).of_sameOutputs ⟨rfl, rfl, rfl, rfl⟩ rfl⟩
  · rw [h]
    exact regWrite_blockInv cfg k v (hrest rest)
  · exact ⟨_, h, blockInv_resetBlock _⟩

end Sys2Proof.Safety
end

section
/-! The trial division across bounds, and what it decides for the two commands that call it. -/

namespace Sys2Proof.Machine

open Sys2Proof.Safety

theorem signedValue_eq_toInt (v : Word) : signedValue v = v.toInt := rfl

/-- With a found divisor the factorizer answers it and its cofactor. -/
theorem factorizeSemiprime_of_found {bound : Nat} {n : Int} {q : Nat}
    (h : isFoundDivisorBelow bound n q) : factorizeSemiprime bound n = .ok (n / q, q) := by
  rcases factorizeSemiprime_cases_below bound n with ⟨q', hq', h'⟩ | ⟨hnone, -⟩
  · rw [isFoundDivisorBelow_unique h hq', h']
  · obtain ⟨hodd, hthree, hlt, hdvd, -⟩ := h
    exact absurd hdvd (hnone q hodd hthree hlt)

/-- With no divisor below the bound the factorizer is exhausted. -/
theorem factorizeSemiprime_of_none {bound : Nat} {n : Int} (h : noDivisorBelow bound n) :
    factorizeSemiprime bound n = .error .factorizationExhausted := by
  rcases factorizeSemiprime_cases_below bound n with ⟨q, ⟨hodd, hthree, hlt, hdvd, -⟩, -⟩ | ⟨-, h'⟩
  · exact absurd hdvd (h q hodd hthree hlt)
  · exact h'

/-- The smallest admitted bound leaves no candidate (41_factorizer.md R75 item 9). -/
theorem noDivisorBelow_three (n : Int) : noDivisorBelow 3 n := fun _ _ hthree hlt =>
  absurd hthree (by omega)

/-- The commands that call the factorizer, so the ones whose result the bound can enter. -/
def callsFactorizer (i : Instr) : Prop := i = .factor ∨ i = .decrypt

/-- The bound enters a command through the factorizer's answer for `OPA` only (00_scope.md R4). -/
theorem commandResult_congr {a b : Config} {i : Instr} {opa opb opc : Word}
    (h : callsFactorizer i →
      factorizeSemiprime a.bound opa.toInt = factorizeSemiprime b.bound opa.toInt) :
    commandResult a i opa opb opc = commandResult b i opa opb opc := by
  cases i with
  | bitat | lmsb | modpow | modinv => rfl
  | factor => simp only [commandResult, factorResult, signedValue_eq_toInt, h (.inl rfl)]
  | decrypt =>
    simp only [commandResult, decryptResult, decryptValue, signedValue_eq_toInt, h (.inr rfl)]

/-- An exhausted factorizer ends the commands that call it. -/
theorem execWith_of_exhausted {cfg : Config} {i : Instr} {s : State} (hi : callsFactorizer i)
    (h : factorizeSemiprime cfg.bound s.opa.toInt = .error .factorizationExhausted) :
    execWith cfg i s = .next (failed 1 s) := by
  have hresult : commandResult cfg i s.opa s.opb s.opc = .error .factorizationExhausted := by
    rcases hi with rfl | rfl
    · simp only [commandResult, factorResult, signedValue_eq_toInt, h]
    · simp only [commandResult, decryptResult, decryptValue, signedValue_eq_toInt, h]
  rw [execWith_eq_finish, hresult]
  rfl

/-- FACTOR of any build with a found divisor (41_factorizer.md R71). -/
theorem execWith_factor_of_found {cfg : Config} {s : State} {q : Nat}
    (h : isFoundDivisorBelow cfg.bound s.opa.toInt q) :
    execWith cfg .factor s =
      .next (succeeded (BitVec.ofInt 64 (s.opa.toInt / q)) (BitVec.ofNat 64 q) s) := by
  have hresult : commandResult cfg .factor s.opa s.opb s.opc =
      .ok (toW (s.opa.toInt / q), toW q) := by
    simp only [commandResult, factorResult, signedValue_eq_toInt, factorizeSemiprime_of_found h]
  rw [execWith_eq_finish, hresult]
  simp only [finish_ok, toW, BitVec.ofInt_natCast]
  rfl

/-- A number up to the bound reads back as itself, unsigned (00_scope.md R4). -/
theorem toNat_ofNat_of_le_bound (cfg : Config) {q : Nat} (h : q ≤ cfg.bound) :
    (BitVec.ofNat 64 q).toNat = q := by
  have hmax : cfg.bound ≤ 2 ^ 63 - 1 := cfg.bound_le_max
  rw [BitVec.toNat_ofNat, Nat.mod_eq_of_lt (by omega)]

/-- A number up to the bound reads back as itself, signed (00_scope.md R4). -/
theorem toInt_ofNat_of_le_bound (cfg : Config) {q : Nat} (h : q ≤ cfg.bound) :
    (BitVec.ofNat 64 q).toInt = q := by
  have hmax : cfg.bound ≤ 2 ^ 63 - 1 := cfg.bound_le_max
  have hq := toNat_ofNat_of_le_bound cfg h
  rw [BitVec.toInt_eq_toNat_of_lt (by omega), hq]

/-- A quotient of a signed value by a positive number is a signed value. -/
theorem toInt_ofInt_ediv (v : Word) {q : Nat} (h : 0 < q) :
    (BitVec.ofInt 64 (v.toInt / q)).toInt = v.toInt / q := by
  have hlo : -2 ^ 63 ≤ v.toInt := BitVec.le_toInt v
  have hhi : v.toInt < 2 ^ 63 := BitVec.toInt_lt
  have hle : -2 ^ 63 ≤ v.toInt / q := by
    rw [Int.le_ediv_iff_mul_le (by omega)]
    nlinarith
  have hlt : v.toInt / q < 2 ^ 63 := by
    rw [Int.ediv_lt_iff_lt_mul (by omega)]
    nlinarith
  rw [BitVec.toInt_ofInt, Int.bmod_eq_of_le] <;> omega

end Sys2Proof.Machine
end

section
/-! What a command reads (00_scope.md R7). -/

namespace Sys2Proof.Machine

open Sys2Proof.Safety

/-- A command computes from the operand registers it uses. -/
theorem commandResult_of_sameUsedOperands (cfg : Config) {i : Instr} {s t : State}
    (h : sameUsedOperands i s t) :
    commandResult cfg i s.opa s.opb s.opc = commandResult cfg i t.opa t.opb t.opc := by
  cases i with
  | lmsb | factor =>
    have ha : s.opa = t.opa := h
    simp only [commandResult, ha]
  | bitat | modinv =>
    obtain ⟨ha, hb⟩ := h
    simp only [commandResult, ha, hb]
  | modpow | decrypt =>
    obtain ⟨ha, hb, hc⟩ := h
    rw [ha, hb, hc]

/-- What a completion writes depends on the command's result alone. -/
theorem finish_sameOutputs (r : Except ErrorName (Word × Word)) (s t : State) :
    ∃ s' t', finish r s = .next s' ∧ finish r t = .next t' ∧ sameOutputs s' t' := by
  rcases r with x | ⟨r0, r1⟩
  · exact ⟨_, _, rfl, rfl, rfl, rfl, rfl, rfl⟩
  · exact ⟨_, _, rfl, rfl, rfl, rfl, rfl, rfl⟩

end Sys2Proof.Machine
end

section
/-! The statements about every build, and what a command reads. -/

namespace Sys2Proof.Proofs

open Sys2Proof.Machine Sys2Proof.Safety

/-- Settles O57: the invariant is kept by what writes no output and established by a completion and by
reset. -/
theorem everyBuildKeepsBlockInv : Obligations.EveryBuildKeepsBlockInv :=
  fun cfg _ hs => stepWith_blockInv cfg hs

/-- Settles O42: a command is a function of the operands it uses, followed by a completion. -/
theorem commandsReadOnlyTheirOperands : Obligations.CommandsReadOnlyTheirOperands := by
  intro i s t h
  rw [exec_eq_finish, exec_eq_finish, commandResult_of_sameUsedOperands Config.specified h]
  exact finish_sameOutputs _ s t

/-- Settles O54: the divisor is below the bound and the cofactor no larger than the operand, so that both
are signed values of the width. -/
theorem factorOnEveryBuild : Obligations.FactorOnEveryBuild := by
  refine fun cfg s => ⟨fun q hq => ?_, fun hnone => ?_⟩
  · have hexec := execWith_factor_of_found hq
    obtain ⟨-, hthree, hlt, hdvd, -⟩ := hq
    exact ⟨s.opa.toInt / q, Int.ediv_mul_cancel hdvd, hexec, toInt_ofInt_ediv s.opa (by omega),
      toInt_ofNat_of_le_bound cfg hlt.le⟩
  · exact execWith_of_exhausted (.inl rfl) (factorizeSemiprime_of_none hnone)

/-- Settles O56: a divisor found below the smaller bound is the one found below the larger, and without
one the commands that call the factorizer complete with code 1. -/
theorem largerBoundKeepsEveryOutcome : Obligations.LargerBoundKeepsEveryOutcome := by
  intro a b i s t hab ht herr
  have hsame (hi : callsFactorizer i) :
      factorizeSemiprime a.bound s.opa.toInt = factorizeSemiprime b.bound s.opa.toInt := by
    rcases factorizeSemiprime_cases_below a.bound s.opa.toInt with ⟨q, hq, h⟩ | ⟨-, h⟩
    · rw [h, factorizeSemiprime_of_found (isFoundDivisorBelow_mono hab hq)]
    · rw [execWith_of_exhausted hi h] at ht
      cases ht
      exact absurd rfl herr
  rwa [execWith_eq_finish, ← commandResult_congr hsame, ← execWith_eq_finish]

/-- Settles O52: the named commands and step are the build's, at the specified configuration. -/
theorem specifiedBuildIsTheBlock : Obligations.SpecifiedBuildIsTheBlock :=
  ⟨rfl, fun i s => by rw [execWith_specified], fun s => by rw [stepWith_specified]⟩

/-- Settles O53: the range of the bound keeps its sign bit clear. -/
theorem boundRegReadsTheBuiltBound : Obligations.BoundRegReadsTheBuiltBound := by
  refine fun cfg s rest => ⟨fun hread => ?_, fun v hwrite => ?_⟩
  · refine ⟨BitVec.ofNat 64 cfg.bound, ?_, toNat_ofNat_of_le_bound cfg le_rfl,
      toInt_ofNat_of_le_bound cfg le_rfl⟩
    rw [stepWith_read cfg hread, ← BitVec.ofInt_natCast]
    rfl
  · rw [stepWith_write cfg hwrite]
    rfl

/-- Settles O55: with `BOUND = 3` the factorizer is exhausted before its first candidate. -/
theorem smallestBoundFactorsNothing : Obligations.SmallestBoundFactorsNothing := by
  intro cfg s hbound
  have hnone : factorizeSemiprime cfg.bound s.opa.toInt = .error .factorizationExhausted :=
    factorizeSemiprime_of_none (hbound ▸ noDivisorBelow_three _)
  exact ⟨execWith_of_exhausted (.inl rfl) hnone, execWith_of_exhausted (.inr rfl) hnone⟩

end Sys2Proof.Proofs
end

section
/-! The frame of a step: what each action of the host leaves alone (10_state.md R11 to R16). -/

namespace Sys2Proof.Machine

open Sys2Proof.Safety

/-- `leavesAlone` in terms of the next host action. -/
theorem leavesAlone_iff {s : State} {a : HostAction} {rest : List HostAction} (h : s.script = a :: rest)
    (k : RegNum) : leavesAlone k s ↔ writesNumber k a = false ∧ a ≠ .assertReset := by
  simp [leavesAlone, h]

theorem leavesAlone_write_iff {s : State} {j : RegNum} {v : Word} {rest : List HostAction}
    (h : s.script = .present (.regWrite j v) :: rest) (k : RegNum) : leavesAlone k s ↔ j ≠ k := by
  simp [leavesAlone_iff h, writesNumber]

theorem not_leavesAlone_of_reset {s : State} {rest : List HostAction} (h : s.script = .assertReset :: rest)
    (k : RegNum) : ¬ leavesAlone k s := by
  simp [leavesAlone_iff h]

/-- Everything a step leaves alone: an operand register, and the outputs with `CMD`, unless the host
writes their own number or resets. -/
theorem stepWith_frame (cfg : Config) (s : State) :
    ∃ t, stepWith cfg s = .next t ∧ (leavesAlone 0 s → t.opa = s.opa) ∧
      (leavesAlone 1 s → t.opb = s.opb) ∧ (leavesAlone 2 s → t.opc = s.opc) ∧
      (leavesAlone 5 s → sameOutputs s t ∧ t.cmd = s.cmd) := by
  rcases stepWith_cases cfg s with
    ⟨-, h⟩ | ⟨k, rest, -, h⟩ | ⟨k, v, rest, hs, h⟩ | ⟨rest, hs, h⟩
  · exact ⟨s, h, by simp [sameOutputs]⟩
  · exact ⟨_, h, by simp [sameOutputs]⟩
  · obtain ⟨t, ht, -, -, hopa, hopb, hopc, hout⟩ := regWrite_frame cfg k v (s.setScript rest)
    simp only [leavesAlone_write_iff hs]
    exact ⟨t, h.trans ht, hopa, hopb, hopc, hout⟩
  · exact ⟨_, h, by simp [not_leavesAlone_of_reset hs]⟩

/-- A step at a write to `CMD` leaves the word in `CMD` and `DONE` set, whatever the word (10_state.md R14,
R15). -/
theorem stepWith_writeCmd (cfg : Config) {s : State} {v : Word} {rest : List HostAction}
    (h : s.script = .present (.regWrite 5 v) :: rest) :
    ∃ t, stepWith cfg s = .next t ∧ t.cmd = v ∧ t.done = true := by
  have hissue : stepWith cfg s = issueCommand (execWith cfg) v (s.setScript rest) :=
    stepWith_write cfg h
  rcases issueCommand_completes cfg v (s.setScript rest) with ⟨r0, r1, ht⟩ | ⟨x, ht⟩
  · exact ⟨_, hissue.trans ht, rfl, rfl⟩
  · exact ⟨_, hissue.trans ht, rfl, rfl⟩

/-- A step that does not reset keeps `DONE` set (10_state.md R15). -/
theorem stepWith_keeps_done (cfg : Config) {s : State} (hdone : s.done = true)
    (hreset : s.script.head? ≠ some .assertReset) : ∃ t, stepWith cfg s = .next t ∧ t.done = true := by
  rcases stepWith_cases cfg s with
    ⟨-, h⟩ | ⟨k, rest, -, h⟩ | ⟨k, v, rest, hs, h⟩ | ⟨rest, hs, -⟩
  · exact ⟨s, h, hdone⟩
  · exact ⟨_, h, hdone⟩
  · by_cases hk : k = 5
    · subst hk
      obtain ⟨t, ht, -, htdone⟩ := stepWith_writeCmd cfg hs
      exact ⟨t, ht, htdone⟩
    · obtain ⟨t, ht, -, -, -, hout⟩ := stepWith_frame cfg s
      obtain ⟨⟨-, -, -, hsame⟩, -⟩ := hout ((leavesAlone_write_iff hs 5).2 hk)
      exact ⟨t, ht, hsame ▸ hdone⟩
  · simp [hs] at hreset

/-- `STATUS` as a number: its two fields do not overlap (10_state.md R15). -/
theorem statusWord_toNat (done : Bool) (err : BitVec 3) :
    (statusWord done err).toNat = done.toNat + 2 * err.toNat := by
  have herr : err.toNat < 8 := err.isLt
  have hdone : done.toNat < 2 := done.toNat_lt
  have hfields : 2 ^ 1 * err.toNat + done.toNat = 2 ^ 1 * err.toNat ||| done.toNat :=
    Nat.two_pow_add_eq_or_of_lt (by omega) _
  have hhigh : (err.setWidth 64 <<< 1).toNat = 2 ^ 1 * err.toNat := by
    rw [BitVec.toNat_shiftLeft, BitVec.toNat_setWidth, Nat.shiftLeft_eq]
    omega
  have hlow : ((BitVec.ofBool done).setWidth 64).toNat = done.toNat := by
    rw [BitVec.toNat_setWidth, BitVec.toNat_ofBool]
    omega
  rw [statusWord, BitVec.toNat_or, hhigh, hlow, ← hfields]
  omega

/-- The bits of `STATUS` above its two fields (10_state.md R15). -/
theorem statusWord_getLsbD_of_le (done : Bool) (err : BitVec 3) {i : Nat} (hi : 4 ≤ i) :
    (statusWord done err).getLsbD i = false := by
  have herr : err.toNat < 8 := err.isLt
  have hdone : done.toNat < 2 := done.toNat_lt
  have hpow : 2 ^ 4 ≤ 2 ^ i := Nat.pow_le_pow_right (by omega) hi
  apply Nat.testBit_lt_two_pow
  rw [statusWord_toNat]
  omega

end Sys2Proof.Machine
end

section
/-! The statements about the block's state. -/

namespace Sys2Proof.Proofs

open Sys2Proof.Machine Sys2Proof.Safety

/-- Settles O48: the block is the build with the specified bound, and every build's step keeps the
invariant. -/
theorem everyStepKeepsBlockInv : Obligations.EveryStepKeepsBlockInv := by
  intro s t hs ht
  obtain ⟨t', ht', hinv⟩ := stepWith_blockInv Config.specified hs
  rw [stepWith_specified, ht] at ht'
  cases ht'
  exact hinv

/-- Settles O41: a command ends in one of the two completions, and each writes the outputs only. -/
theorem commandFrame : Obligations.CommandFrame := by
  intro i s
  rcases exec_cases i s with ⟨r0, r1, hr, h⟩ | ⟨x, hx, h⟩
  · exact ⟨_, h, ⟨rfl, rfl, rfl, rfl, rfl, rfl⟩, rfl, zero_mem_codesOf i, fun h0 => absurd rfl h0,
      second_result_eq_zero hr⟩
  · exact ⟨_, h, ⟨rfl, rfl, rfl, rfl, rfl, rfl⟩, rfl, errorCode_mem_codesOf hx, fun _ => ⟨rfl, rfl⟩,
      fun _ => rfl⟩

/-- Settles O44, by the frame of a step. -/
theorem operandsChangeOnlyByHostWrite : Obligations.OperandsChangeOnlyByHostWrite := by
  intro s
  obtain ⟨t, ht, hopa, hopb, hopc, -⟩ := stepWith_frame Config.specified s
  exact ⟨t, stepWith_specified ▸ ht, hopa, hopb, hopc⟩

/-- Settles O45: the frame of a step, and what a write to `CMD` sets. -/
theorem outputsChangeOnlyByCompletion : Obligations.OutputsChangeOnlyByCompletion := by
  intro s
  obtain ⟨t, ht, -, -, -, hout⟩ := stepWith_frame Config.specified s
  refine ⟨t, stepWith_specified ▸ ht, hout, fun v rest hs => ?_⟩
  obtain ⟨t', ht', hset⟩ := stepWith_writeCmd Config.specified hs
  cases ht.symm.trans ht'
  exact hset

/-- Settles O46: reset clears `DONE` and every other step keeps it set. -/
theorem doneClearedOnlyByReset : Obligations.DoneClearedOnlyByReset := by
  intro s hdone
  by_cases hreset : s.script.head? = some .assertReset
  · obtain ⟨rest, hs⟩ := List.head?_eq_some_iff.1 hreset
    exact ⟨_, step_reset hs, by simp [hreset]⟩
  · obtain ⟨t, ht, htdone⟩ := stepWith_keeps_done Config.specified hdone hreset
    exact ⟨t, stepWith_specified ▸ ht, by simp [htdone, hreset]⟩

/-- Settles O9: register number 6 reads as the word of the two fields. -/
theorem statusWordValue : Obligations.StatusWordValue := fun s =>
  ⟨statusWord_toNat s.done s.err, fun _ hi => statusWord_getLsbD_of_le s.done s.err hi⟩

/-- Settles O13: each field by definition, and the sixteen reads evaluated. -/
theorem resetValues : Obligations.ResetValues :=
  ⟨rfl, rfl, rfl, rfl, rfl, rfl, rfl, rfl, by decide⟩

/-- Settles O47: the reset input leaves the reset state as it is, and it establishes the invariant. -/
theorem blockInvAtReset : Obligations.BlockInvAtReset := blockInv_resetBlock State.reset

end Sys2Proof.Proofs
end

section
/-! The register port (20_memory.md): one rule for each way to use it, and runs of host actions that
leave a register number alone. -/

namespace Sys2Proof.Machine

open Sys2Proof.Safety

/-! What a write to a given number does (R33, R34). -/

theorem issueCommand_of_decode (run : Commands) {v : Word} {i : Instr} (hi : decode v = .ok i) (s : State) :
    issueCommand run v s = run i (s.setCmd v) := by
  simp only [issueCommand, hi]

theorem issueCommand_of_illegal (run : Commands) {v : Word} (hv : ∀ i, decode v ≠ .ok i) (s : State) :
    issueCommand run v s = .next (raiseError .illegalCommand (s.setCmd v)) := by
  rcases issueCommand_cases run v s with ⟨i, hi, -⟩ | ⟨_, -, h⟩
  · exact absurd hi (hv i)
  · exact h

/-- A write to a result, to `STATUS`, to a constant or to a reserved number is ignored. -/
theorem regWrite_ignored (run : Commands) {k : RegNum}
    (hk : k = 3 ∨ k = 4 ∨ k = 6 ∨ k = 7 ∨ k = 8 ∨ 9 ≤ k) (v : Word) (s : State) :
    regWrite run k v s = .next s := by
  rcases hk with rfl | rfl | rfl | rfl | rfl | hk
  case inr.inr.inr.inr.inr => simp only [regWrite, regOfNumber_reserved k hk]
  all_goals rfl

theorem step_writeCmd {s : State} {v : Word} {rest : List HostAction}
    (h : s.script = .present (.regWrite 5 v) :: rest) :
    step s = issueCommand exec v (s.setScript rest) := step_write h

/-- A step at a write to an operand register leaves the value to be read under its number. -/
theorem step_writeOperand {s : State} {k : RegNum} {v : Word} {rest : List HostAction}
    (hk : k = 0 ∨ k = 1 ∨ k = 2) (h : s.script = .present (.regWrite k v) :: rest) :
    ∃ t, step s = .next t ∧ t.script = rest ∧ regRead Config.specified k t = v := by
  rcases hk with rfl | rfl | rfl
  all_goals exact ⟨_, step_write h, rfl, rfl⟩

/-! What a read of a given number returns (R32; 10_state.md R15, R24). -/

theorem regRead_reserved (cfg : Config) {k : RegNum} (hk : 9 ≤ k) (s : State) : regRead cfg k s = 0 := by
  simp only [regRead, regOfNumber_reserved k hk]

@[simp] theorem regRead_setScript (cfg : Config) (k : RegNum) (l : List HostAction) (s : State) :
    regRead cfg k (s.setScript l) = regRead cfg k s := by
  unfold regRead
  rcases regOfNumber k with _ | r
  · rfl
  · cases r <;> rfl

/-- A step at a read hands the host what the state reads as. -/
theorem step_returns_regRead {s : State} {k : RegNum} {rest : List HostAction}
    (h : s.script = .present (.regRead k) :: rest) :
    ∃ t, step s = .next t ∧ t.script = rest ∧
      t.returned.getLast? = some (regRead Config.specified k s) :=
  ⟨_, step_read h, by simp, by simp⟩

theorem statusWord_done (done : Bool) (err : BitVec 3) : (statusWord done err).getLsbD 0 = done := by
  rw [BitVec.getLsbD, statusWord_toNat, Nat.testBit_zero]
  cases done <;> simp

theorem statusWord_err (done : Bool) (err : BitVec 3) : (statusWord done err).extractLsb' 1 3 = err := by
  have hdone : done.toNat < 2 := done.toNat_lt
  apply BitVec.eq_of_toNat_eq
  rw [BitVec.extractLsb'_toNat, statusWord_toNat, Nat.shiftRight_eq_div_pow]
  omega

theorem statusWord_reserved (done : Bool) (err : BitVec 3) :
    (statusWord done err).extractLsb' 4 60 = 0 := by
  have herr : err.toNat < 8 := err.isLt
  have hdone : done.toNat < 2 := done.toNat_lt
  apply BitVec.eq_of_toNat_eq
  rw [BitVec.extractLsb'_toNat, statusWord_toNat, Nat.shiftRight_eq_div_pow, Nat.div_eq_of_lt (by omega)]
  rfl

/-! A command issued twice (R37). -/

/-- What a write of `v` to `CMD` computes from the operand registers: the result of the command it
encodes, or IllegalCommand. -/
def issueResult (cfg : Config) (v opa opb opc : Word) : Except ErrorName (Word × Word) :=
  match decode v with
  | .ok i => commandResult cfg i opa opb opc
  | .error _ => .error .illegalCommand

/-- A write to `CMD` is a function of the word and the operand registers followed by a completion. -/
theorem issueCommand_eq_finish (cfg : Config) (v : Word) (s : State) :
    issueCommand (execWith cfg) v s = finish (issueResult cfg v s.opa s.opb s.opc) (s.setCmd v) := by
  unfold issueCommand issueResult
  rcases decode v with x | i
  · rfl
  · exact execWith_eq_finish cfg i (s.setCmd v)

/-- The same completion over a state it has already left changes nothing more. -/
theorem finish_repeat {r : Except ErrorName (Word × Word)} {v : Word} {s t : State}
    (h : finish r (s.setCmd v) = .next t) (l : List HostAction) :
    finish r ((t.setScript l).setCmd v) = .next (t.setScript l) := by
  rcases finish_cases h with ⟨r0, r1, rfl, rfl⟩ | ⟨x, rfl, rfl⟩
  all_goals rfl

theorem finish_keeps_operands {r : Except ErrorName (Word × Word)} {s t : State} (h : finish r s = .next t) :
    t.opa = s.opa ∧ t.opb = s.opb ∧ t.opc = s.opc := by
  rcases finish_cases h with ⟨r0, r1, -, rfl⟩ | ⟨x, -, rfl⟩
  all_goals exact ⟨rfl, rfl, rfl⟩

/-- A command finds the operands it found before, so that its completion repeats itself. -/
theorem issueCommand_repeat {cfg : Config} {v : Word} {s t : State}
    (h : issueCommand (execWith cfg) v s = .next t) (l : List HostAction) :
    issueCommand (execWith cfg) v (t.setScript l) = .next (t.setScript l) := by
  rw [issueCommand_eq_finish] at h ⊢
  obtain ⟨hopa, hopb, hopc⟩ := finish_keeps_operands h
  simp only [setScript_opa, setScript_opb, setScript_opc, hopa, hopb, hopc]
  exact finish_repeat h l

/-! Runs of host actions (R40). -/

/-- Every step uses up the host's next action and nothing else of its script. -/
theorem step_script (s : State) : ∃ t, step s = .next t ∧ t.script = s.script.tail := by
  rcases stepWith_cases Config.specified s with
    ⟨hs, h⟩ | ⟨k, rest, hs, h⟩ | ⟨k, v, rest, hs, h⟩ | ⟨rest, hs, h⟩
  all_goals rw [stepWith_specified] at h; rw [hs]
  · exact ⟨s, h, hs⟩
  · exact ⟨_, h, rfl⟩
  · obtain ⟨t, ht, hscript, -⟩ := regWrite_frame Config.specified k v (s.setScript rest)
    exact ⟨t, h.trans ht, hscript⟩
  · exact ⟨_, h, rfl⟩

theorem step_keeps_operand {s t : State} {k : RegNum} (hk : k = 0 ∨ k = 1 ∨ k = 2) (hs : leavesAlone k s)
    (ht : step s = .next t) : regRead Config.specified k t = regRead Config.specified k s := by
  obtain ⟨t', ht', hopa, hopb, hopc, -⟩ := stepWith_frame Config.specified s
  rw [stepWith_specified, ht] at ht'
  cases ht'
  rcases hk with rfl | rfl | rfl
  · exact hopa hs
  · exact hopb hs
  · exact hopc hs

theorem step_keeps_outputs {s t : State} (hs : leavesAlone 5 s) (ht : step s = .next t) :
    sameOutputs s t ∧ t.cmd = s.cmd := by
  obtain ⟨t', ht', -, -, -, hout⟩ := stepWith_frame Config.specified s
  rw [stepWith_specified, ht] at ht'
  cases ht'
  exact hout hs

theorem runSteps_succ {s t : State} (h : step s = .next t) (n : Nat) :
    runSteps (n + 1) s = runSteps n t := by
  simp only [runSteps, h]

/-- A run that follows a run. -/
theorem runSteps_add {m : Nat} {s t : State} (h : runSteps m s = .next t) (n : Nat) :
    runSteps (m + n) s = runSteps n t := by
  induction m generalizing s with
  | zero =>
    cases h
    rw [Nat.zero_add]
  | succ m ih =>
    obtain ⟨u, hu, -⟩ := step_script s
    rw [runSteps_succ hu] at h
    rw [Nat.succ_add, runSteps_succ hu, ih h]

/-- What every step that leaves register number `k` alone keeps, a run of actions that leave it alone
keeps, and the run uses up those actions. -/
theorem runSteps_keeps {k : RegNum} {P : State → Prop}
    (hP : ∀ s t, leavesAlone k s → step s = .next t → P s → P t) {between rest : List HostAction}
    (hbetween : ∀ a ∈ between, writesNumber k a = false ∧ a ≠ .assertReset) {s : State}
    (hs : s.script = between ++ rest) (hPs : P s) :
    ∃ t, runSteps between.length s = .next t ∧ t.script = rest ∧ P t := by
  induction between generalizing s with
  | nil => exact ⟨s, rfl, hs, hPs⟩
  | cons a l ih =>
    obtain ⟨ha, hl⟩ := List.forall_mem_cons.1 hbetween
    obtain ⟨u, hu, hscript⟩ := step_script s
    rw [hs] at hscript
    obtain ⟨t, ht, hrest, hPt⟩ := ih hl hscript (hP s u ((leavesAlone_iff hs k).2 ha) hu hPs)
    exact ⟨t, (runSteps_succ hu _).trans ht, hrest, hPt⟩

end Sys2Proof.Machine
end

section
/-! The statements about the register port. -/

namespace Sys2Proof.Proofs

open Sys2Proof.Machine Sys2Proof.Safety

/-- Settles O10: the write leaves the value to be read, every action between keeps what a read would
return, and the read hands it to the host. -/
theorem operandReadsBackLastWrite : Obligations.OperandReadsBackLastWrite := by
  intro s k v between rest hk hbetween hs
  obtain ⟨t₁, hwrite, hs₁, hv₁⟩ := step_writeOperand hk hs
  obtain ⟨t₂, hrun, hs₂, hv₂⟩ := runSteps_keeps (P := fun u => regRead Config.specified k u = v)
    (fun _ _ halone ht hv => (step_keeps_operand hk halone ht).trans hv) hbetween hs₁ hv₁
  obtain ⟨t₃, hread, hs₃, hv₃⟩ := step_returns_regRead hs₂
  refine ⟨t₃, ?_, hs₃, hv₂ ▸ hv₃⟩
  calc runSteps (between.length + 1 + 1) s
      = runSteps (between.length + 1) t₁ := runSteps_succ hwrite _
    _ = runSteps 1 t₂ := runSteps_add hrun 1
    _ = .next t₃ := runSteps_succ hread 0

/-- Settles O11, by the frame of a step along the run. -/
theorem outputsStandUntilNextCommand : Obligations.OutputsStandUntilNextCommand := by
  intro s between rest hbetween hs
  refine runSteps_keeps (P := fun u => sameOutputs s u ∧ u.cmd = s.cmd) ?_ hbetween hs
    ⟨⟨rfl, rfl, rfl, rfl⟩, rfl⟩
  rintro u t halone ht ⟨⟨hres0, hres1, herr, hdone⟩, hcmd⟩
  obtain ⟨⟨hres0', hres1', herr', hdone'⟩, hcmd'⟩ := step_keeps_outputs halone ht
  exact ⟨⟨hres0.trans hres0', hres1.trans hres1', herr.trans herr', hdone.trans hdone'⟩,
    hcmd'.trans hcmd⟩

/-- Settles O43: a completion writes neither the operands nor anything its repetition would write
differently. -/
theorem repeatedCommandIsIdempotent : Obligations.RepeatedCommandIsIdempotent := by
  intro s v rest hs
  obtain ⟨t, ht, hscript⟩ := step_script s
  rw [hs] at hscript
  have hissue := ht
  rw [step_writeCmd hs, ← execWith_specified] at hissue
  refine ⟨t, ht, ?_⟩
  rw [step_writeCmd hscript, ← execWith_specified]
  exact issueCommand_repeat hissue rest

/-- Settles O5: a write to `CMD` issues the word, and a word that decodes runs its command. -/
theorem stepRunsDecodedCommand : Obligations.StepRunsDecodedCommand := fun _ _ _ _ hs hi =>
  (step_writeCmd hs).trans (issueCommand_of_decode exec hi _)

/-- Settles O7, one rule for each row of the table. -/
theorem regWriteTable : Obligations.RegWriteTable := by
  intro s k v rest hs
  refine ⟨?opa, ?opb, ?opc, ?legal, ?illegal, ?ignored⟩
  case opa | opb | opc =>
    rintro rfl
    exact step_write hs
  case legal =>
    rintro rfl i hi
    exact stepRunsDecodedCommand s v i rest hs hi
  case illegal =>
    rintro rfl hv
    exact (step_writeCmd hs).trans (issueCommand_of_illegal exec hv _)
  case ignored =>
    intro hk
    exact (step_write hs).trans (regWrite_ignored exec hk v _)

/-- Settles O8: the read returns `regRead`, whose value under each number is a field of the state, the
word of the two flags, a constant, or zero. -/
theorem regReadTable : Obligations.RegReadTable := by
  intro s k rest hs
  refine ⟨regRead Config.specified k (s.setScript rest), step_read hs,
    ?opa, ?opb, ?opc, ?res0, ?res1, ?cmd, ?status, ?bound, ?width, fun hk => regRead_reserved _ hk _⟩
  case status =>
    rintro rfl
    exact ⟨statusWord_done s.done s.err, statusWord_err s.done s.err, statusWord_reserved s.done s.err⟩
  all_goals
    rintro rfl
    rfl

end Sys2Proof.Proofs
end

section
/-! The decoder and the encoder (30_encoding.md R45 to R49), and scripts (R52, R53). -/

namespace Sys2Proof.Machine

open Sys2Proof.Safety

/-! What the decoder answers, by its two fields (R46, R47, R49). -/

theorem zeroField_toNat (v : Word) : (zeroField v).toNat = v.toNat / 16 := by
  have hv : v.toNat < 2 ^ 64 := v.isLt
  rw [zeroField, BitVec.extractLsb'_toNat, Nat.shiftRight_eq_div_pow]
  omega

theorem opcodeField_toNat (v : Word) : (opcodeField v).toNat = v.toNat % 16 := by
  rw [opcodeField, BitVec.extractLsb'_toNat, Nat.shiftRight_zero]

theorem zeroField_eq_zero_iff (v : Word) : zeroField v = 0 ↔ v.toNat / 16 = 0 := by
  rw [← zeroField_toNat]
  exact BitVec.toNat_inj.symm

theorem decode_of_zeroField_eq_zero {v : Word} (h : zeroField v = 0) :
    decode v = decodeOpcode (opcodeField v) := if_pos h

theorem decode_of_zeroField_ne_zero {v : Word} (h : zeroField v ≠ 0) : decode v = .error .zeroFieldSet :=
  if_neg h

/-- The opcodes of the map are 1 to 6. -/
theorem exists_decodeOpcode_iff (op : BitVec 4) :
    (∃ i, decodeOpcode op = .ok i) ↔ 1 ≤ op.toNat ∧ op.toNat ≤ 6 := by
  constructor
  · rintro ⟨i, hi⟩
    rw [encodeOpcode_of_decodeOpcode hi]
    cases i <;> decide
  · intro hop
    obtain ⟨hlo, hhi⟩ := hop
    unfold decodeOpcode
    interval_cases op.toNat
    all_goals exact ⟨_, rfl⟩

/-- A word is legal by its two fields (R49). -/
theorem exists_decode_iff (v : Word) :
    (∃ i, decode v = .ok i) ↔ v.toNat / 16 = 0 ∧ 1 ≤ v.toNat % 16 ∧ v.toNat % 16 ≤ 6 := by
  rw [← zeroField_eq_zero_iff, ← opcodeField_toNat, ← exists_decodeOpcode_iff]
  by_cases hzero : zeroField v = 0
  · simp only [decode_of_zeroField_eq_zero hzero, hzero, true_and]
  · simp only [decode_of_zeroField_ne_zero hzero, hzero, false_and, reduceCtorEq, exists_false]

/-! Decoding and encoding undo each other (R45, R46). -/

theorem encodingFields (i : Instr) : Laws.EncodingFields.Statement i := by
  cases i
  exacts [Laws.EncodingFields.bitat, Laws.EncodingFields.lmsb, Laws.EncodingFields.factor,
    Laws.EncodingFields.modpow, Laws.EncodingFields.modinv, Laws.EncodingFields.decrypt]

theorem decode_encode (i : Instr) : decode (encode i) = .ok i := by
  obtain ⟨-, hopcode, hzero, hdecode⟩ := encodingFields i
  rw [decode_of_zeroField_eq_zero hzero, hopcode, hdecode]

/-- A command has one word. -/
theorem decode_eq_ok_iff (v : Word) (i : Instr) : decode v = .ok i ↔ v = encode i :=
  ⟨eq_encode_of_decode, fun h => h ▸ decode_encode i⟩

/-! The transaction of a script line (R52). -/

theorem scriptValue_iff (value : Int) : scriptValue value = true ↔ -2 ^ 63 ≤ value ∧ value ≤ 2 ^ 64 - 1 := by
  simp [scriptValue]

theorem regRefNumber_of_lt {k : Nat} (h : k < 16) : regRefNumber (.numbered k) = some ⟨k, h⟩ := dif_pos h

theorem regRefNumber_of_le {k : Nat} (h : 16 ≤ k) : regRefNumber (.numbered k) = none :=
  dif_neg (Nat.not_lt.2 h)

/-- A register reference that is not well formed has no number. -/
theorem regRefNumber_of_not_wellFormed {reg : RegRef} (h : reg.wellFormed = false) :
    regRefNumber reg = none := by
  cases reg with
  | named r => cases h
  | numbered k => exact regRefNumber_of_le (by simpa [RegRef.wellFormed] using h)

theorem lineTransaction_wr (reg : RegRef) (value : Int) :
    lineTransaction (.wr reg value) =
      if scriptValue value = true then (regRefNumber reg).map fun k => .regWrite k (toW value) else none := by
  cases hreg : reg.wellFormed
  · simp [lineTransaction, ScriptLine.wellFormed, hreg, regRefNumber_of_not_wellFormed hreg]
  · simp [lineTransaction, ScriptLine.wellFormed, hreg]

theorem lineTransaction_rd (reg : RegRef) :
    lineTransaction (.rd reg) = (regRefNumber reg).map fun k => .regRead k := by
  cases hreg : reg.wellFormed
  · simp [lineTransaction, ScriptLine.wellFormed, hreg, regRefNumber_of_not_wellFormed hreg]
  · simp [lineTransaction, ScriptLine.wellFormed, hreg]

/-! Scripts of writes to named registers, which is what the pseudo-instructions are (R53). -/

/-- The host's action at `wr <reg>, <value>`. -/
def writeAction (r : RegName) (value : Int) : HostAction :=
  .present (.regWrite (numberOfReg r) (toW value))

theorem assembleScript_wrLine_cons (r : RegName) (value : Int) (ls : List ScriptLine) :
    assembleScript (wrLine r value :: ls) =
      if scriptValue value = true then (assembleScript ls).map (writeAction r value :: ·) else none := by
  rw [assembleScript, wrLine, lineTransaction_wr]
  by_cases hvalue : scriptValue value = true
  · rw [if_pos hvalue, if_pos hvalue]
    cases assembleScript ls <;> rfl
  · rw [if_neg hvalue, if_neg hvalue]

/-- The word `wr CMD, <opcode>` writes is the command word. -/
theorem assembleScript_issueLine (i : Instr) :
    assembleScript [issueLine i] = some [.present (.regWrite 5 (encode i))] := by
  cases i <;> rfl

/-- The operand writes of a pseudo-instruction followed by its command write: the host's actions if every
argument is a value of the script, and no script otherwise. -/
theorem assembleScript_writes_issue (ws : List (RegName × Int)) (i : Instr) :
    assembleScript (ws.map (Function.uncurry wrLine) ++ [issueLine i]) =
      if ∀ w ∈ ws, scriptValue w.2 = true then
        some (ws.map (Function.uncurry writeAction) ++ [.present (.regWrite 5 (encode i))])
      else none := by
  induction ws with
  | nil => simpa using assembleScript_issueLine i
  | cons w ws ih =>
    rw [List.map_cons, List.cons_append, Function.uncurry, assembleScript_wrLine_cons, ih]
    simp only [List.forall_mem_cons]
    by_cases hw : scriptValue w.2 = true
    · by_cases hws : ∀ w ∈ ws, scriptValue w.2 = true
      · rw [if_pos hw, if_pos hws, if_pos ⟨hw, hws⟩]
        rfl
      · rw [if_pos hw, if_neg hws, if_neg fun h => hws h.2]
        rfl
    · rw [if_neg hw, if_neg fun h => hw h.1]

/-- A run of one step. -/
theorem runSteps_one (s : State) : runSteps 1 s = step s := by
  obtain ⟨t, ht, -⟩ := step_script s
  rw [runSteps_succ ht, ht, runSteps]

/-! A run that starts with the write of an operand (20_memory.md R33). -/

section

variable {s : State} {v : Word} {rest : List HostAction}

theorem runSteps_writeOpa (hs : s.script = .present (.regWrite 0 v) :: rest) (n : Nat) :
    runSteps (n + 1) s = runSteps n { s with opa := v, script := rest } :=
  runSteps_succ (step_write hs) n

theorem runSteps_writeOpb (hs : s.script = .present (.regWrite 1 v) :: rest) (n : Nat) :
    runSteps (n + 1) s = runSteps n { s with opb := v, script := rest } :=
  runSteps_succ (step_write hs) n

theorem runSteps_writeOpc (hs : s.script = .present (.regWrite 2 v) :: rest) (n : Nat) :
    runSteps (n + 1) s = runSteps n { s with opc := v, script := rest } :=
  runSteps_succ (step_write hs) n

end

end Sys2Proof.Machine
end

section
/-! The statements about the encoding and about scripts. -/

namespace Sys2Proof.Proofs

open Sys2Proof.Machine Sys2Proof.Safety

/-- Settles O2: the fields of a command's word decode to it, and a word is its two fields. -/
theorem decodeAgreesWithEncode : Obligations.DecodeAgreesWithEncode := by
  refine ⟨fun i _ => decode_encode i, fun v i h => ?_⟩
  obtain ⟨hwf, -⟩ := encodingFields i
  exact ⟨hwf, (eq_encode_of_decode h).symm⟩

/-- Settles O1: each row of the opcode map is `encode` of its command. -/
theorem eachCommandHasExactlyItsWord : Obligations.EachCommandHasExactlyItsWord := fun v =>
  ⟨decode_eq_ok_iff v .bitat, decode_eq_ok_iff v .lmsb, decode_eq_ok_iff v .factor,
    decode_eq_ok_iff v .modpow, decode_eq_ok_iff v .modinv, decode_eq_ok_iff v .decrypt⟩

/-- Settles O4: legality is read off the two fields, and a word that decodes to nothing completes with
IllegalCommand over the state that holds it. -/
theorem illegalWordsCompleteWithIllegalCommand : Obligations.IllegalWordsCompleteWithIllegalCommand := by
  refine fun v => ⟨exists_decode_iff v, fun hillegal s rest hs => ?_⟩
  have hnone : ∀ i, decode v ≠ .ok i := by
    rwa [← exists_decode_iff, not_exists] at hillegal
  exact (step_writeCmd hs).trans (issueCommand_of_illegal exec hnone _)

/-- Settles O51: the script is three operand writes and the write of MODPOW's word, one step each. -/
theorem playedModpowUsesItsArguments : Obligations.PlayedModpowUsesItsArguments := by
  intro s x y z l rest hl hs
  have hexpand := assembleScript_writes_issue [(.opa, x), (.opb, y), (.opc, z)] .modpow
  replace hl := hexpand.symm.trans hl
  split at hl
  case isFalse => cases hl
  cases hl
  calc runSteps 4 s
      = runSteps 3 _ := runSteps_writeOpa hs 3
    _ = runSteps 2 _ := runSteps_writeOpb rfl 2
    _ = runSteps 1 _ := runSteps_writeOpc rfl 1
    _ = step _ := runSteps_one _
    _ = exec .modpow _ := stepRunsDecodedCommand _ _ _ rest rfl (decode_encode .modpow)

/-- Settles O3: the six words of the map, two reserved opcodes, and two words with a bit of `ZERO` set. -/
theorem sampleWordsDecode : Obligations.SampleWordsDecode := by
  refine ⟨decode_encode .bitat, decode_encode .lmsb, decode_encode .factor, decode_encode .modpow,
    decode_encode .modinv, decode_encode .decrypt, ?zero, ?seven, ?bit4, ?bit63⟩
  case zero | seven => exact decode_of_zeroField_eq_zero (by decide)
  case bit4 | bit63 => exact decode_of_zeroField_ne_zero (by decide)

/-- Settles O49: each pseudo-instruction is writes of its arguments followed by its command's line. -/
theorem pseudoInstructionsExpand : Obligations.PseudoInstructionsExpand := by
  intro x y z hx hy hz
  have hexpand := fun ws i (h : ∀ w ∈ ws, scriptValue w.2 = true) =>
    (assembleScript_writes_issue ws i).trans (if_pos h)
  refine ⟨hexpand [(.opa, x), (.opb, y)] .bitat ?_, hexpand [(.opa, x)] .lmsb ?_,
    hexpand [(.opa, x)] .factor ?_, hexpand [(.opa, x), (.opb, y), (.opc, z)] .modpow ?_,
    hexpand [(.opa, x), (.opb, y)] .modinv ?_, hexpand [(.opa, x), (.opb, y), (.opc, z)] .decrypt ?_,
    assembleScript_issueLine⟩
  all_goals simp [hx, hy, hz]

/-- Settles O50: the register number is below 16 or has no register, the value is the script's or not. -/
theorem scriptLinesAreTransactions : Obligations.ScriptLinesAreTransactions := by
  intro k value
  refine ⟨fun hk hlo hhi => ?write, fun hk => ?read, fun hk => ?number, fun hvalue => ?value⟩
  case write =>
    rw [lineTransaction_wr, if_pos ((scriptValue_iff value).2 ⟨hlo, hhi⟩), regRefNumber_of_lt hk]
    rfl
  case read =>
    rw [lineTransaction_rd, regRefNumber_of_lt hk]
    rfl
  case number =>
    rw [lineTransaction_wr, lineTransaction_rd, regRefNumber_of_le hk]
    exact ⟨ite_self none, rfl⟩
  case value =>
    rw [lineTransaction_wr, if_neg]
    rw [scriptValue_iff]
    omega

end Sys2Proof.Proofs
end

section
/-! The Bit Inspector (40_bit_inspector.md): `bit_at` and `leftmost_set_bit` against the value of the
pattern, and what the two commands leave. -/

namespace Sys2Proof.Machine

open Sys2Proof.Safety

/-! The leading one of a non-zero pattern is at weight `Nat.log 2 u(v)`. -/

theorem getLsbD_log_toNat {v : Word} (h : v ≠ 0) : v.getLsbD (Nat.log 2 v.toNat) = true :=
  Nat.testBit_of_two_pow_le_and_two_pow_add_one_gt (Nat.pow_log_le_self 2 (BitVec.toNat_ne_iff_ne.2 h))
    (Nat.lt_pow_succ_log_self (by decide) _)

theorem getLsbD_of_log_toNat_lt {v : Word} {i : Nat} (h : Nat.log 2 v.toNat < i) : v.getLsbD i = false :=
  Nat.testBit_lt_two_pow (Nat.lt_pow_of_log_lt (by decide) h)

/-! `leftmost_set_bit` (R62, R64). -/

theorem leftmostSetBit_nonneg {v : Word} (h : v ≠ 0) : 0 ≤ leftmostSetBit v := by
  have hlog := log_toNat_lt v
  rw [leftmostSetBit_of_ne_zero v h]
  omega

theorem leftmostSetBit_le (v : Word) : leftmostSetBit v ≤ 63 := by
  by_cases h : v = 0
  · rw [h, leftmostSetBit_zero]
    decide
  · rw [leftmostSetBit_of_ne_zero v h]
    omega

/-- The sentinel means the zero pattern. -/
theorem leftmostSetBit_eq_neg_one_iff (v : Word) : leftmostSetBit v = -1 ↔ v = 0 := by
  refine ⟨fun h => by_contra fun hv => ?_, fun h => h ▸ leftmostSetBit_zero⟩
  have hnonneg := leftmostSetBit_nonneg hv
  omega

theorem ne_zero_of_leftmostSetBit_nonneg {v : Word} (h : 0 ≤ leftmostSetBit v) : v ≠ 0 := by
  rintro rfl
  rw [leftmostSetBit_zero] at h
  omega

theorem bitAt_leftmostSetBit {v : Word} (h : v ≠ 0) : bitAt v (leftmostSetBit v) = some true := by
  have hlog := log_toNat_lt v
  have hindex : 63 - (63 - (Nat.log 2 v.toNat : Int)).toNat = Nat.log 2 v.toNat := by omega
  rw [leftmostSetBit_of_ne_zero v h, bitAt_of_mem v _ (by omega) (by omega), hindex, getLsbD_log_toNat h]

/-- The bits before the leftmost set one are clear. -/
theorem bitAt_of_lt_leftmostSetBit {v : Word} (h : v ≠ 0) {j : Int} (h0 : 0 ≤ j)
    (hj : j < leftmostSetBit v) : bitAt v j = some false := by
  rw [leftmostSetBit_of_ne_zero v h] at hj
  rw [bitAt_of_mem v j h0 (by omega), getLsbD_of_log_toNat_lt (by omega)]

theorem bitAt_zero {j : Int} (h0 : 0 ≤ j) (h1 : j < 64) : bitAt 0 j = some false := by
  rw [bitAt_of_mem 0 j h0 h1]
  exact congrArg some BitVec.getLsbD_zero

/-- The bits at the last `k` indices are the binary digits of the low `k` bits' value. -/
theorem sum_bitAt_eq_toNat_mod (v : Word) {k : Nat} (hk : k ≤ 64) :
    ∑ j ∈ Finset.Icc (64 - k) 63, (if bitAt v (j : Int) = some true then 2 ^ (63 - j) else 0) =
      v.toNat % 2 ^ k := by
  induction k with
  | zero => simp [Nat.mod_one]
  | succ k ih =>
    have hfirst : 64 - (k + 1) = 63 - k := by omega
    have hrest : Finset.Ioc (63 - k) 63 = Finset.Icc (64 - k) 63 := by
      ext j
      simp only [Finset.mem_Ioc, Finset.mem_Icc]
      omega
    have hweight : 63 - (63 - k) = k := by omega
    have hbit : bitAt v ((63 - k : Nat) : Int) = some (v.getLsbD k) := by
      rw [bitAt_of_mem v _ (by omega) (by omega), Int.toNat_natCast, hweight]
    rw [hfirst, ← Finset.sum_Ioc_add_eq_sum_Icc (Nat.sub_le 63 k), hrest, ih (by omega), hbit, hweight,
      toNat_mod_succ]
    simp only [Option.some_inj]

/-- The bits from the leftmost set one on are the binary digits of the value (R64). -/
theorem sum_bitAt_leftmostSetBit {v : Word} (h : v ≠ 0) :
    v.toNat = ∑ j ∈ Finset.Icc (leftmostSetBit v).toNat 63,
      (if bitAt v (j : Int) = some true then 2 ^ (63 - j) else 0) := by
  have hlog := log_toNat_lt v
  have hindex : (63 - (Nat.log 2 v.toNat : Int)).toNat = 64 - (Nat.log 2 v.toNat + 1) := by omega
  rw [leftmostSetBit_of_ne_zero v h, hindex, sum_bitAt_eq_toNat_mod v (by omega),
    Nat.mod_eq_of_lt (Nat.lt_pow_succ_log_self (by decide) _)]

/-! The result patterns of the two commands. -/

/-- A bit extended to the width is the quotient by its weight, modulo 2 (R60, R61). -/
theorem zextBit_getLsbD (v : Word) (k : Nat) :
    zextBit (v.getLsbD k) = BitVec.ofNat 64 (v.toNat / 2 ^ k % 2) := by
  rw [BitVec.getLsbD, Nat.testBit_eq_decide_div_mod_eq]
  rcases Nat.mod_two_eq_zero_or_one (v.toNat / 2 ^ k) with h | h
  all_goals
    rw [h]
    rfl

/-- The index LMSB returns reads back as a signed value, the sentinel included (R63). -/
theorem toInt_toW_leftmostSetBit (v : Word) : (toW (leftmostSetBit v)).toInt = leftmostSetBit v := by
  have hle := leftmostSetBit_le v
  have hge : -1 ≤ leftmostSetBit v := by
    by_cases h : v = 0
    · exact ((leftmostSetBit_eq_neg_one_iff v).2 h).ge
    · exact (by decide : (-1 : Int) ≤ 0).trans (leftmostSetBit_nonneg h)
  rw [toW, BitVec.toInt_ofInt, Int.bmod_eq_of_le] <;> omega

/-! What the two commands leave (R61, R63). -/

theorem exec_bitat_of_some {s : State} {b : Bool} (h : bitAt s.opa s.opb.toInt = some b) :
    exec .bitat s = .next (succeeded (zextBit b) 0 s) := by
  have hresult : commandResult Config.specified .bitat s.opa s.opb s.opc = .ok (zextBit b, toW 0) := by
    simp only [commandResult, bitatResult, signedValue_eq_toInt, h]
  rw [exec_eq_finish, hresult]
  rfl

theorem exec_bitat_of_none {s : State} (h : bitAt s.opa s.opb.toInt = none) :
    exec .bitat s = .next (failed 4 s) := by
  have hresult : commandResult Config.specified .bitat s.opa s.opb s.opc = .error .operandRange := by
    simp only [commandResult, bitatResult, signedValue_eq_toInt, h]
  rw [exec_eq_finish, hresult]
  rfl

theorem exec_lmsb (s : State) : exec .lmsb s = .next (succeeded (toW (leftmostSetBit s.opa)) 0 s) :=
  exec_eq_finish .lmsb s

end Sys2Proof.Machine
end

section
/-! The statements about the Bit Inspector. -/

namespace Sys2Proof.Proofs

open Sys2Proof.Machine Sys2Proof.Safety

/-- Settles O16: `bit_at` has a value exactly at the indices of the width, and the value is the digit of
weight `2^(63-j)`. -/
theorem bitatReturnsTheIndexedBit : Obligations.BitatReturnsTheIndexedBit := by
  refine ⟨decode_encode .bitat, fun s => ⟨fun hinside => ?inside, fun houtside => ?outside⟩⟩
  case inside =>
    obtain ⟨h0, h1⟩ := hinside
    rw [exec_bitat_of_some (bitAt_of_mem s.opa _ h0 h1), zextBit_getLsbD]
  case outside => exact exec_bitat_of_none (bitAt_outside s.opa _ houtside)

/-- Settles O17: LMSB returns `leftmost_set_bit`, which is the sentinel at zero and 63 less the logarithm
elsewhere. -/
theorem lmsbReturnsTheLeadingIndex : Obligations.LmsbReturnsTheLeadingIndex := by
  refine ⟨decode_encode .lmsb, fun s => ⟨fun hzero => ?zero, fun hne => ?nonzero⟩⟩
  case zero => rw [exec_lmsb, hzero, leftmostSetBit_zero, toW]
  case nonzero =>
    have hlog := log_toNat_lt s.opa
    have hcast : (63 - (Nat.log 2 s.opa.toNat : Int)) = ((63 - Nat.log 2 s.opa.toNat : Nat) : Int) := by
      omega
    rw [exec_lmsb, leftmostSetBit_of_ne_zero _ hne, toW, hcast, BitVec.ofInt_natCast]

/-- Settles O18: the index is the sentinel for the zero pattern only, and otherwise the place of the
leading digit of the value. -/
theorem leftmostBitRelations : Obligations.LeftmostBitRelations := by
  refine fun v => ⟨fun hindex => ?index, fun hsentinel => ?sentinel, ?range⟩
  case index =>
    have hv := ne_zero_of_leftmostSetBit_nonneg hindex
    exact ⟨bitAt_leftmostSetBit hv, fun _ => bitAt_of_lt_leftmostSetBit hv, sum_bitAt_leftmostSetBit hv⟩
  case sentinel =>
    rw [(leftmostSetBit_eq_neg_one_iff v).1 hsentinel]
    exact fun _ => bitAt_zero
  case range =>
    by_cases hv : v = 0
    · exact .inl ((leftmostSetBit_eq_neg_one_iff v).2 hv)
    · exact .inr ⟨leftmostSetBit_nonneg hv, leftmostSetBit_le v⟩

/-- Settles O19: LMSB leaves `OPA` as it is, and the index in its result reads back from `OPB` as itself. -/
theorem bitatOfLmsbIsOne : Obligations.BitatOfLmsbIsOne := by
  intro s hs
  refine ⟨_, _, exec_lmsb s, exec_bitat_of_some (b := true) ?_, rfl, rfl⟩
  rw [toInt_toW_leftmostSetBit, bitAt_leftmostSetBit hs]

end Sys2Proof.Proofs
end

section
/-! The Integer Factorizer (41_factorizer.md): the loop's fuel, and the found divisor in terms of the
prime factors of the operand. -/

namespace Sys2Proof.Machine

open Sys2Proof.Safety

/-- Fuel past the last candidate never decides the answer (R76). -/
theorem trialDivide_eq_of_enough_fuel {bound k m i : Nat} (n : Int) (hk : bound ≤ i + 2 * k)
    (hm : bound ≤ i + 2 * m) : trialDivide bound n k i = trialDivide bound n m i := by
  rcases trialDivide_cases bound n k i hk with ⟨d, hlt, hdvd, hmin, h⟩ | ⟨hnone, h⟩
  · rw [h, trialDivide_found bound n d m i (by omega) hlt hdvd hmin]
  · rw [h, trialDivide_exhausted bound n m i hnone]

/-! Candidates and primes (R72). -/

/-- The found divisor is a candidate that divides, with no divisor among the candidates before it. -/
theorem isFoundDivisorBelow_iff {bound q : Nat} {n : Int} :
    isFoundDivisorBelow bound n q ↔
      Odd q ∧ 3 ≤ q ∧ q < bound ∧ (q : Int) ∣ n ∧ noDivisorBelow q n := Iff.rfl

theorem three_le_of_odd_prime {q : Nat} (hq : q.Prime) (h2 : q ≠ 2) : 3 ≤ q :=
  hq.two_le.lt_of_ne' h2

/-- The smallest prime factor of a candidate is a candidate. -/
theorem minFac_isCandidate {i : Nat} (hodd : Odd i) (h3 : 3 ≤ i) :
    i.minFac.Prime ∧ Odd i.minFac ∧ 3 ≤ i.minFac := by
  have hprime : i.minFac.Prime := Nat.minFac_prime (by omega)
  have hoddFac : Odd i.minFac := hodd.of_dvd_nat (Nat.minFac_dvd i)
  exact ⟨hprime, hoddFac, three_le_of_odd_prime hprime (hoddFac.ne_two_of_dvd_nat dvd_rfl)⟩

/-- The found divisor is prime: its smallest prime factor is a candidate that divides. -/
theorem prime_of_isFoundDivisorBelow {bound q : Nat} {n : Int} (h : isFoundDivisorBelow bound n q) :
    q.Prime := by
  obtain ⟨hodd, hthree, -, hdvd, hnone⟩ := isFoundDivisorBelow_iff.1 h
  obtain ⟨hprime, hoddFac, hthreeFac⟩ := minFac_isCandidate hodd hthree
  have hdvdFac : (q.minFac : Int) ∣ n := (Int.natCast_dvd_natCast.2 q.minFac_dvd).trans hdvd
  have hle : q ≤ q.minFac := not_lt.1 fun hlt => hnone _ hoddFac hthreeFac hlt hdvdFac
  rwa [← hle.antisymm (Nat.minFac_le (by omega))] at hprime

/-- Only the odd prime factors of the operand decide whether a candidate divides it. -/
theorem noDivisorBelow_of_primes {bound : Nat} {n : Int}
    (h : ∀ r : Nat, r.Prime → (r : Int) ∣ n → r = 2 ∨ bound ≤ r) : noDivisorBelow bound n := by
  intro i hodd h3 hlt hdvd
  obtain ⟨hprime, -, hthreeFac⟩ := minFac_isCandidate hodd h3
  have hdvdFac : (i.minFac : Int) ∣ n := (Int.natCast_dvd_natCast.2 i.minFac_dvd).trans hdvd
  have hle : i.minFac ≤ i := Nat.minFac_le (by omega)
  rcases h _ hprime hdvdFac with htwo | hbound
  · omega
  · omega

/-- The smallest odd prime factor of the operand is the found divisor, when the bound admits it. -/
theorem isFoundDivisorBelow_of_smallest_prime {bound q : Nat} {n : Int} (hq : q.Prime) (h2 : q ≠ 2)
    (hlt : q < bound) (hdvd : (q : Int) ∣ n)
    (hmin : ∀ r : Nat, r.Prime → (r : Int) ∣ n → r = 2 ∨ q ≤ r) : isFoundDivisorBelow bound n q :=
  isFoundDivisorBelow_iff.2
    ⟨hq.odd_of_ne_two h2, three_le_of_odd_prime hq h2, hlt, hdvd, noDivisorBelow_of_primes hmin⟩

/-! The prime factors of the operands of R75. -/

theorem eq_of_prime_dvd_prime {r q : Nat} (hr : r.Prime) (hq : q.Prime) (h : (r : Int) ∣ (q : Int)) :
    r = q :=
  (Nat.prime_dvd_prime_iff_eq hr hq).1 (Int.natCast_dvd_natCast.1 h)

theorem eq_or_eq_of_prime_dvd_semiprime {r p q : Nat} (hr : r.Prime) (hp : p.Prime) (hq : q.Prime)
    (h : (r : Int) ∣ (p : Int) * q) : r = p ∨ r = q :=
  (Int.Prime.dvd_mul' hr h).imp (eq_of_prime_dvd_prime hr hp) (eq_of_prime_dvd_prime hr hq)

theorem eq_two_of_prime_dvd_two_pow {r k : Nat} (hr : r.Prime) (h : (r : Int) ∣ 2 ^ k) : r = 2 :=
  eq_of_prime_dvd_prime hr Nat.prime_two (Int.Prime.dvd_pow' hr h)

/-! FACTOR of the specified hardware (R71). -/

theorem exec_factor_of_none {s : State} (h : noDivisorInBound s.opa.toInt) :
    exec .factor s = .next (failed 1 s) := by
  rw [← execWith_specified]
  exact execWith_of_exhausted (.inl rfl) (factorizeSemiprime_of_none h)

/-- With a found divisor FACTOR returns the pair whose product is the operand. -/
theorem exec_factor_of_product {s : State} {p : Int} {q : Nat} (h : isFoundDivisor s.opa.toInt q)
    (hprod : s.opa.toInt = p * q) :
    exec .factor s = .next (succeeded (BitVec.ofInt 64 p) (BitVec.ofNat 64 q) s) := by
  have hexec := execWith_factor_of_found (cfg := Config.specified) h
  obtain ⟨-, hthree, -⟩ := h
  rwa [execWith_specified, hprod, Int.mul_ediv_cancel p (by omega)] at hexec

/-- Everything FACTOR can do. -/
theorem exec_factor_cases (s : State) :
    (∃ (p : Int) (q : Nat), isFoundDivisor s.opa.toInt q ∧ s.opa.toInt = p * q ∧
      exec .factor s = .next (succeeded (BitVec.ofInt 64 p) (BitVec.ofNat 64 q) s)) ∨
    (noDivisorInBound s.opa.toInt ∧ exec .factor s = .next (failed 1 s)) := by
  rcases factorizeSemiprime_cases s.opa.toInt with ⟨q, hq, -⟩ | ⟨hnone, -⟩
  · have ⟨_, _, _, hdvd, _⟩ := hq
    have hprod : s.opa.toInt = s.opa.toInt / q * q := (Int.ediv_mul_cancel hdvd).symm
    exact .inl ⟨_, q, hq, hprod, exec_factor_of_product hq hprod⟩
  · exact .inr ⟨hnone, exec_factor_of_none hnone⟩

end Sys2Proof.Machine
end

section
/-! The statements about the Integer Factorizer. -/

namespace Sys2Proof.Proofs

open Sys2Proof.Machine Sys2Proof.Safety

/-- Settles O20: the cofactor is the exact quotient, at most a third of the operand since the divisor is
at least 3. -/
theorem factorReturnsTheSmallestOddDivisor : Obligations.FactorReturnsTheSmallestOddDivisor := by
  refine ⟨decode_encode .factor, fun s => ⟨fun q hq => ?found, exec_factor_of_none⟩⟩
  have ⟨_, hthree, _, ⟨p, hp⟩, _⟩ := hq
  have hprod : s.opa.toInt = p * q := hp.trans (mul_comm _ _)
  refine ⟨p, hprod.symm, ?_, exec_factor_of_product hq hprod⟩
  calc 3 * |p| ≤ q * |p| := mul_le_mul_of_nonneg_right (by omega) (abs_nonneg p)
    _ = |s.opa.toInt| := by rw [hp, abs_mul, Nat.abs_cast]

/-- Settles O21: both results are signed values of the width, and the smallest odd divisor is prime. -/
theorem factorDivisorIsPrime : Obligations.FactorDivisorIsPrime := by
  intro s
  rcases exec_factor_cases s with ⟨p, q, hq, hprod, hexec⟩ | ⟨-, hexec⟩
  case inl =>
    have ⟨hodd, hthree, hlt, _⟩ := hq
    have hquot : s.opa.toInt / q = p := by rw [hprod, Int.mul_ediv_cancel p (by omega)]
    have hres0 : (BitVec.ofInt 64 p).toInt = p := hquot ▸ toInt_ofInt_ediv s.opa (by omega)
    have hres1 : (BitVec.ofNat 64 q).toInt = q := toInt_ofNat_of_le_bound Config.specified hlt.le
    have hnat : (BitVec.ofNat 64 q).toNat = q := toNat_ofNat_of_le_bound Config.specified hlt.le
    refine ⟨_, hexec, fun _ => ?_⟩
    simp only [hres0, hres1, hnat]
    exact ⟨hprod.symm, prime_of_isFoundDivisorBelow hq, hodd, hlt⟩
  case inr => exact ⟨_, hexec, fun herr => absurd herr (by decide : (1 : BitVec 3) ≠ 0)⟩

/-- Settles O22: the prime factors of the operand are the two primes, so the smaller is found first. -/
theorem factorSplitsSemiprimes : Obligations.FactorSplitsSemiprimes := by
  intro s p q hp hq h2 hle hlt hprod
  have hfound : isFoundDivisor s.opa.toInt q := by
    rw [hprod]
    refine isFoundDivisorBelow_of_smallest_prime hq h2 hlt (dvd_mul_left _ _) fun r hr hdvd => .inr ?_
    rcases eq_or_eq_of_prime_dvd_semiprime hr hp hq hdvd with rfl | rfl
    · exact hle
    · exact le_rfl
  rw [exec_factor_of_product hfound hprod, BitVec.ofInt_natCast]

/-- Settles O23: each case by the prime factors of the operand. -/
theorem factorCornerCases : Obligations.FactorCornerCases := by
  refine fun s => ⟨fun hzero => ?zero, fun k hpow => ?power, fun q hq h2 hlt hn => ?prime,
    fun p q hp hq hpb hqb hprod => ?large⟩
  case zero =>
    have hfound : isFoundDivisor s.opa.toInt 3 := by
      rw [hzero]
      refine isFoundDivisorBelow_of_smallest_prime Nat.prime_three (by decide) (by decide)
        (dvd_zero _) fun r hr _ => ?_
      have htwo := hr.two_le
      omega
    exact exec_factor_of_product hfound (hzero.trans (zero_mul _).symm)
  case power =>
    refine exec_factor_of_none (noDivisorBelow_of_primes fun r hr hdvd => .inl ?_)
    rcases hpow with h | h
    · exact eq_two_of_prime_dvd_two_pow hr (h ▸ hdvd)
    · exact eq_two_of_prime_dvd_two_pow hr ((dvd_neg).1 (h ▸ hdvd))
  case prime =>
    have hfound : isFoundDivisor s.opa.toInt q := by
      rw [hn]
      exact isFoundDivisorBelow_of_smallest_prime hq h2 hlt dvd_rfl fun r hr hdvd =>
        .inr (eq_of_prime_dvd_prime hr hq hdvd).ge
    exact exec_factor_of_product hfound (hn.trans (one_mul _).symm)
  case large =>
    refine exec_factor_of_none (noDivisorBelow_of_primes fun r hr hdvd => .inr ?_)
    rcases eq_or_eq_of_prime_dvd_semiprime hr hp hq (hprod ▸ hdvd) with rfl | rfl
    · exact hpb
    · exact hqb

/-- Settles O24: after `floor((BOUND-2)/2)` iterations the candidate has reached the bound. -/
theorem factorIterationBound : Obligations.FactorIterationBound := fun _ n _ hk =>
  trialDivide_eq_of_enough_fuel n (by omega) (by omega)

end Sys2Proof.Proofs
end

section
/-! The Modular Exponentiator (42_modexp.md): when `mod_pow` is the reduced power, which results read back
as themselves, and what MODPOW leaves. -/

namespace Sys2Proof.Machine

open Sys2Proof.Safety

/-- A pattern that is not negative has the same value under both readings (00_scope.md R3). -/
theorem toInt_eq_toNat_of_nonneg {v : Word} (h : 0 ≤ v.toInt) : v.toInt = v.toNat :=
  BitVec.toInt_eq_toNat_of_lt (BitVec.toInt_pos_iff.1 h)

/-- A remainder modulo a signed value of the width reads back as itself (R81). -/
theorem toInt_ofInt_emod (x : Int) {m : Word} (hm : 1 ≤ m.toInt) :
    (BitVec.ofInt 64 (x % m.toInt)).toInt = x % m.toInt := by
  have hmax : m.toInt < 2 ^ 63 := BitVec.toInt_lt
  have hnonneg : 0 ≤ x % m.toInt := Int.emod_nonneg x (by omega)
  have hlt : x % m.toInt < m.toInt := Int.emod_lt_of_pos x (by omega)
  exact BitVec.toInt_ofInt_eq_self (by decide) (by omega) (by omega)

/-- For a base below the modulus the exponent 1 gives the reduced power too (R84, R87). -/
theorem modPow_of_base_lt {b m : Int} {E : Word} (hE : 0 < E.toNat) (h0 : 0 ≤ b) (hlt : b < m) :
    modPow b E m = b ^ E.toNat % m := by
  rcases Nat.lt_or_ge 1 E.toNat with htwo | hone
  · exact modPow_of_two_le b m E htwo
  · have hone : E.toNat = 1 := by omega
    rw [modPow_short b m E (.inr (BitVec.eq_of_toNat_eq hone)), hone, pow_one, Int.emod_eq_of_lt h0 hlt]

/-! What MODPOW leaves (R81, R82). -/

theorem exec_modpow_of_outside {s : State} (h : s.opc.toInt < 1 ∨ s.opa.toInt < 0) :
    exec .modpow s = .next (failed 4 s) := by
  have hresult : commandResult Config.specified .modpow s.opa s.opb s.opc = .error .operandRange :=
    if_pos h
  rw [exec_eq_finish, hresult]
  rfl

theorem exec_modpow_of_inside {s : State} (h : ¬ (s.opc.toInt < 1 ∨ s.opa.toInt < 0)) :
    exec .modpow s = .next (succeeded (toW (modPow s.opa.toInt s.opb s.opc.toInt)) 0 s) := by
  have hresult : commandResult Config.specified .modpow s.opa s.opb s.opc =
      .ok (toW (modPow s.opa.toInt s.opb s.opc.toInt), toW 0) :=
    if_neg h
  rw [exec_eq_finish, hresult]
  rfl

end Sys2Proof.Machine
end

section
/-! The statements about MODPOW alone. -/

namespace Sys2Proof.Proofs

open Sys2Proof.Machine Sys2Proof.Safety

/-- Settles O27: the check is MODPOW's only one. -/
theorem modpowOperandDomain : Obligations.ModpowOperandDomain := fun _ =>
  ⟨exec_modpow_of_outside, fun h => ⟨_, exec_modpow_of_inside h⟩⟩

/-- Settles O26: the result is the pattern of the base's own value, which is the base's pattern. -/
theorem modpowShortExponentReturnsBase : Obligations.ModpowShortExponentReturnsBase := by
  intro s hbase hmodulus hshort
  rw [exec_modpow_of_inside (by omega), modPow_short _ _ _ hshort, toW, BitVec.ofInt_toInt]

/-- Settles O25: square-and-multiply is the reduced power, and a remainder of the modulus fits the width. -/
theorem modpowIsTheModularPower : Obligations.ModpowIsTheModularPower := by
  intro s hbase hmodulus hexponent
  refine ⟨?_, toInt_ofInt_emod _ hmodulus⟩
  rw [exec_modpow_of_inside (by omega), modPow_of_two_le _ _ _ hexponent, toW]

end Sys2Proof.Proofs
end

section
/-! The extended Euclidean loop from its first rows to the exponent DECRYPT raises to (43_modinv.md R90,
R94; 44_decrypt.md R103). -/

namespace Sys2Proof.Machine

open Sys2Proof.Safety

/-- Where the loop started on `(a, b)` ends: its last row and the row of the zero remainder. -/
theorem extendedEuclid_ends {a b : Int} (ha : 0 ≤ a) (hb : 0 ≤ b) :
    ∃ z, EuclidInv a b (extendedEuclid a b) z ∧ z.r = 0 ∧ (extendedEuclid a b).r = Int.gcd a b :=
  euclidLoop_ends _ _ _ (euclidInv_start ha hb) (Nat.lt_succ_self _)

theorem modInverse_gcd {a b : Int} (ha : 0 ≤ a) (hb : 0 ≤ b) : (modInverse a b).1 = Int.gcd a b := by
  obtain ⟨z, -, -, hgcd⟩ := extendedEuclid_ends ha hb
  exact hgcd

theorem modInverse_bezout {a b : Int} (ha : 0 ≤ a) (hb : 0 ≤ b) :
    a * (extendedEuclid a b).s + b * (modInverse a b).2 = (modInverse a b).1 := by
  obtain ⟨z, hinv, -, -⟩ := extendedEuclid_ends ha hb
  exact hinv.bezoutX

/-- For coprime operands the coefficient of the zero remainder is `±a`, at least twice the coefficient of
the remainder 1 before it. -/
theorem modInverse_coefficient_le {a b : Int} (ha : 0 ≤ a) (hb : 0 ≤ b) (hgcd : Int.gcd a b = 1) :
    2 * |(modInverse a b).2| ≤ max 2 a := by
  obtain ⟨z, hinv, hz, hr⟩ := extendedEuclid_ends ha hb
  have hcross : |z.t| = a := by simpa [hr, hgcd, hz] using hinv.cross
  rcases hinv.half hz with htwice | hone
  · exact le_max_of_le_right (hcross ▸ htwice)
  · have htwo : 2 * |(extendedEuclid a b).t| ≤ 2 := by omega
    exact le_max_of_le_left htwo

/-- One conditional addition makes the coefficient the inverse of `e` modulo `phi`, in its range (R103). -/
theorem exists_normaliseExponent {phi e : Int} (hphi : 0 ≤ phi) (he : 0 ≤ e) (hgcd : Int.gcd phi e = 1) :
    ∃ d : Nat, normaliseExponent phi (modInverse phi e).2 = d ∧ (d : Int) < max phi 2 ∧
      phi ∣ e * d - 1 := by
  have hbezout := modInverse_bezout hphi he
  have hbound := modInverse_coefficient_le hphi he hgcd
  rw [modInverse_gcd hphi he, hgcd, Nat.cast_one] at hbezout
  generalize (modInverse phi e).2 = t at hbezout hbound
  generalize (extendedEuclid phi e).s = x at hbezout
  unfold normaliseExponent
  split
  next hneg =>
    have hzero : phi ≠ 0 := by
      rintro rfl
      nlinarith
    rw [abs_of_neg hneg] at hbound
    refine ⟨(t + phi).toNat, ?_⟩
    rw [Int.toNat_of_nonneg (by omega)]
    exact ⟨rfl, by omega, e - x, by linear_combination hbezout⟩
  next hpos =>
    rw [abs_of_nonneg (not_lt.1 hpos)] at hbound
    refine ⟨t.toNat, ?_⟩
    rw [Int.toNat_of_nonneg (by omega)]
    exact ⟨rfl, by omega, -x, by linear_combination hbezout⟩

end Sys2Proof.Machine
end

section
/-! Powers modulo a product of two primes (44_decrypt.md R105), and the totient of the pair. -/

namespace Sys2Proof.Machine

/-- Fermat's little theorem for every residue: an exponent that is 1 modulo `p - 1` changes nothing. -/
theorem pow_modEq_self_of_prime {p k : Nat} (hp : p.Prime) (hk : 0 < k) (h : (p : Int) - 1 ∣ k - 1)
    (x : Int) : x ^ k ≡ x [ZMOD p] := by
  have hdvd : p - 1 ∣ k - 1 := by
    rw [← Int.natCast_dvd_natCast, Nat.cast_pred hp.pos, Nat.cast_pred hk]
    exact h
  simpa using Int.ModEq.pow_eq_pow hp hdvd hk one_pos x

/-- The same for a modulus of two distinct primes and their totient. -/
theorem pow_modEq_self_of_totient {p q k : Nat} (hp : p.Prime) (hq : q.Prime) (hpq : p ≠ q) (hk : 0 < k)
    (h : totient p q ∣ k - 1) (x : Int) : x ^ k ≡ x [ZMOD p * q] := by
  have hcoprime : (p : Int).natAbs.Coprime (q : Int).natAbs := (Nat.coprime_primes hp hq).2 hpq
  exact (Int.modEq_and_modEq_iff_modEq_mul hcoprime).1
    ⟨pow_modEq_self_of_prime hp hk ((dvd_mul_right _ _).trans h) x,
      pow_modEq_self_of_prime hq hk ((dvd_mul_left _ _).trans h) x⟩

/-- The totient of two distinct odd primes lies between 2 and their product (R102). -/
theorem totient_range {p q : Nat} (hq : 3 ≤ q) (hlt : q < p) :
    2 ≤ totient p q ∧ totient p q < (p : Int) * q := by
  have hq' : (3 : Int) ≤ q := by exact_mod_cast hq
  have hp' : (q : Int) < p := by exact_mod_cast hlt
  unfold totient
  constructor
  · nlinarith
  · linarith

end Sys2Proof.Machine
end

section
/-! What DECRYPT leaves where no check fires (44_decrypt.md R100, R104), and for the operands of R105. -/

namespace Sys2Proof.Machine

open Sys2Proof.Safety

/-- Once the divisor is found DECRYPT goes on with the totient of the pair. -/
theorem decryptValue_of_product {bound q : Nat} {n p : Int} (h : isFoundDivisorBelow bound n q)
    (hprod : n = p * q) (e c : Int) : decryptValue bound n e c = decryptWithTotient (totient p q) n e c := by
  have hfactors := factorizeSemiprime_of_found h
  obtain ⟨-, hthree, -⟩ := h
  have hquot : n / q = p := by rw [hprod, Int.mul_ediv_cancel p (by omega)]
  rw [decryptValue, hfactors, hquot]

theorem exec_decrypt_of_ok {s : State} {m : Int}
    (h : decryptValue Config.specified.bound s.opa.toInt s.opb.toInt s.opc.toInt = .ok m) :
    exec .decrypt s = .next (succeeded (toW m) 0 s) := by
  have hresult : commandResult Config.specified .decrypt s.opa s.opb s.opc = .ok (toW m, toW 0) := by
    simp only [commandResult, decryptResult, signedValue_eq_toInt, h]
  rw [exec_eq_finish, hresult]
  rfl

/-- Where no check fires DECRYPT is `mod_pow` at the inverse exponent. -/
theorem exec_decrypt_of_coprime {s : State} {p : Int} {q : Nat} (h : isFoundDivisor s.opa.toInt q)
    (hprod : s.opa.toInt = p * q) (hphi : 0 ≤ totient p q) (he : 0 ≤ s.opb.toInt)
    (hgcd : Int.gcd (totient p q) s.opb.toInt = 1) (hn : 1 ≤ s.opa.toInt) (hc : 0 ≤ s.opc.toInt) :
    ∃ d : Nat, (d : Int) < max (totient p q) 2 ∧ totient p q ∣ s.opb.toInt * d - 1 ∧
      exec .decrypt s =
        .next (succeeded (toW (modPow s.opc.toInt (BitVec.ofNat 64 d) s.opa.toInt)) 0 s) := by
  obtain ⟨d, hd, hlt, hdvd⟩ := exists_normaliseExponent hphi he hgcd
  have hone : (modInverse (totient p q) s.opb.toInt).1 = 1 := by
    rw [modInverse_gcd hphi he, hgcd, Nat.cast_one]
  refine ⟨d, hlt, hdvd, exec_decrypt_of_ok ?_⟩
  rw [decryptValue_of_product (bound := Config.specified.bound) h hprod, decryptWithTotient_eq,
    if_neg (by omega), if_pos hone, if_neg (by omega), hd, toW, BitVec.ofInt_natCast]

/-- The smaller of two odd primes is the found divisor of their product (41_factorizer.md R72). -/
theorem isFoundDivisorBelow_semiprime {bound p q : Nat} (hp : p.Prime) (hq : q.Prime) (h2 : q ≠ 2)
    (hle : q ≤ p) (hlt : q < bound) : isFoundDivisorBelow bound ((p : Int) * q) q := by
  refine isFoundDivisorBelow_of_smallest_prime hq h2 hlt (dvd_mul_left _ _) fun r hr hdvd => .inr ?_
  rcases eq_or_eq_of_prime_dvd_semiprime hr hp hq hdvd with rfl | rfl
  · exact hle
  · exact le_rfl

/-- For the operands of R105 DECRYPT is the modular power at an inverse of the public exponent. -/
theorem exec_decrypt_of_semiprime {s : State} {p q : Nat} (hp : p.Prime) (hq : q.Prime) (h2 : q ≠ 2)
    (hlt : q < p) (hbound : q < 100000) (hn : s.opa.toInt = (p : Int) * q) (he : 1 ≤ s.opb.toInt)
    (hgcd : Int.gcd s.opb.toInt (totient p q) = 1) (h0 : 0 ≤ s.opc.toInt)
    (hc : s.opc.toInt < s.opa.toInt) :
    ∃ d : Nat, 0 < d ∧ totient p q ∣ s.opb.toInt * d - 1 ∧
      exec .decrypt s =
        .next (succeeded (BitVec.ofInt 64 (s.opc.toInt ^ d % s.opa.toInt)) 0 s) := by
  have hfound : isFoundDivisor s.opa.toInt q := hn ▸ isFoundDivisorBelow_semiprime hp hq h2 hlt.le hbound
  have hmax : s.opa.toInt < 2 ^ 63 := BitVec.toInt_lt
  obtain ⟨hphi, hphin⟩ := totient_range (three_le_of_odd_prime hq h2) hlt
  obtain ⟨d, hd, hdvd, hexec⟩ := exec_decrypt_of_coprime hfound hn (by omega) (by omega)
    (Int.gcd_comm _ _ ▸ hgcd) (by omega) h0
  have hpos : 0 < d := by
    rcases Nat.eq_zero_or_pos d with rfl | hpos
    · have hunit : totient p q ∣ 1 := by simpa using hdvd
      have hle := Int.le_of_dvd one_pos hunit
      omega
    · exact hpos
  have hval : (BitVec.ofNat 64 d).toNat = d := by
    rw [BitVec.toNat_ofNat, Nat.mod_eq_of_lt (by omega)]
  rw [modPow_of_base_lt (hval.symm ▸ hpos) h0 hc, hval] at hexec
  exact ⟨d, hpos, hdvd, hexec⟩

/-- An exponent and its inverse modulo the totient undo each other on the residues (R105). -/
theorem pow_emod_pow_emod_of_inverse {p q e d : Nat} (hp : p.Prime) (hq : q.Prime) (hpq : p ≠ q)
    (he : 0 < e) (hd : 0 < d) (h : totient p q ∣ (e : Int) * d - 1) {a : Int} (h0 : 0 ≤ a)
    (ha : a < (p : Int) * q) : (a ^ e % ((p : Int) * q)) ^ d % ((p : Int) * q) = a := by
  have hinverse : totient p q ∣ ((e * d : Nat) : Int) - 1 := by rwa [Nat.cast_mul]
  have hpower : (a ^ e % ((p : Int) * q)) ^ d ≡ a [ZMOD p * q] :=
    calc (a ^ e % ((p : Int) * q)) ^ d ≡ (a ^ e) ^ d [ZMOD p * q] := (Int.mod_modEq _ _).pow d
      _ = a ^ (e * d) := (pow_mul a e d).symm
      _ ≡ a [ZMOD p * q] := pow_modEq_self_of_totient hp hq hpq (Nat.mul_pos he hd) hinverse a
  exact hpower.eq.trans (Int.emod_eq_of_lt h0 ha)

end Sys2Proof.Machine
end

section
/-! The round trip through MODPOW and DECRYPT. -/

namespace Sys2Proof.Proofs

open Sys2Proof.Machine Sys2Proof.Safety

/-- Settles O38: DECRYPT's exponent is the inverse of MODPOW's modulo the totient, and the two powers are
the identity on the residues of a square-free modulus. -/
theorem encryptThenDecryptRoundTrip : Obligations.EncryptThenDecryptRoundTrip := by
  intro s p q hp hq h2 hlt hbound hn he hgcd h0 ha
  have hunsigned : s.opb.toInt = s.opb.toNat := toInt_eq_toNat_of_nonneg (by omega)
  have hcipher := toInt_ofInt_emod (s.opa.toInt ^ s.opb.toNat) (m := s.opc) (by omega)
  have hencrypt : exec .modpow s =
      .next (succeeded (BitVec.ofInt 64 (s.opa.toInt ^ s.opb.toNat % s.opc.toInt)) 0 s) := by
    rw [exec_modpow_of_inside (by omega), modPow_of_base_lt (by omega) h0 ha, toW]
  generalize BitVec.ofInt 64 (s.opa.toInt ^ s.opb.toNat % s.opc.toInt) = c at hcipher hencrypt
  have hc0 : 0 ≤ c.toInt := hcipher ▸ Int.emod_nonneg _ (by omega)
  have hc : c.toInt < s.opc.toInt := hcipher ▸ Int.emod_lt_of_pos _ (by omega)
  obtain ⟨d, hd, hdvd, hdecrypt⟩ := exec_decrypt_of_semiprime
    (s := { succeeded c 0 s with opa := s.opc, opc := c }) hp hq h2 hlt hbound hn he hgcd hc0 hc
  have hplain : c.toInt ^ d % s.opc.toInt = s.opa.toInt := by
    rw [hcipher, hn]
    exact pow_emod_pow_emod_of_inverse hp hq hlt.ne' (by omega) hd (hunsigned ▸ hdvd) h0 (hn ▸ ha)
  refine ⟨_, hencrypt, rfl, ?_⟩
  rw [hdecrypt, hplain, BitVec.ofInt_toInt]

end Sys2Proof.Proofs
end

section
/-! The Modular Inverse Solver (43_modinv.md): how many iterations the loop needs, and what MODINV leaves. -/

namespace Sys2Proof.Machine

open Sys2Proof.Safety

/-- A division with a non-zero quotient takes the divisor and the remainder out of the dividend. -/
theorem add_emod_le_of_le {x y : Int} (hy : 0 < y) (hle : y ≤ x) : y + x % y ≤ x := by
  have hquot : 1 ≤ x / y := Int.le_ediv_of_mul_le hy (by omega)
  calc y + x % y ≤ y * (x / y) + x % y := by gcongr; exact le_mul_of_one_le_right hy.le hquot
    _ = x := Int.mul_ediv_add_emod x y

/-- Lamé's bound (R97): `k` iterations are enough when the second remainder is below `fib (k + 2)`. The
second alternative carries the induction: two remainders in turn add up to at most the one before them. -/
theorem euclidLoop_eq_of_lt_fib {k m : Nat} (hkm : k ≤ m) {x y : EuclidRow} (hy : 0 ≤ y.r)
    (h : y.r < Nat.fib (k + 2) ∨ y.r < x.r ∧ x.r < Nat.fib (k + 3)) :
    euclidLoop k x y = euclidLoop m x y := by
  induction k generalizing m x y with
  | zero =>
    have hzero : y.r = 0 := by
      norm_num at h
      omega
    cases m with
    | zero => rfl
    | succ m => rw [euclidLoop, euclidLoop, if_pos hzero]
  | succ k ih =>
    obtain ⟨m, rfl⟩ : ∃ j, m = j + 1 := ⟨m - 1, by omega⟩
    rw [euclidLoop, euclidLoop]
    split
    next => rfl
    next hne =>
      have hnonneg : 0 ≤ x.r % y.r := Int.emod_nonneg _ hne
      have hlt : x.r % y.r < y.r := Int.emod_lt_of_pos _ (by omega)
      refine ih (by omega) ?_ ?_ <;> rw [euclidNext_r]
      · exact hnonneg
      · rcases h with hfib | ⟨hfall, hfib⟩
        · exact .inr ⟨hlt, hfib⟩
        · have hsum : y.r + x.r % y.r ≤ x.r := add_emod_le_of_le (by omega) hfall.le
          have hadd : Nat.fib (k + 1 + 3) = Nat.fib (k + 2) + Nat.fib (k + 3) := Nat.fib_add_two
          omega

/-- For a second operand of the width 94 iterations are enough. -/
theorem lt_fib_of_lt_width {b : Int} {k : Nat} (hb : b < 2 ^ 63) (hk : 94 ≤ k) : b < Nat.fib (k + 2) := by
  have hmono : Nat.fib 96 ≤ Nat.fib (k + 2) := Nat.fib_mono (by omega)
  have hval : Nat.fib 96 = 51680708854858323072 := by norm_num
  omega

/-- The coefficient fits the width, so that its pattern reads back as it (R94). -/
theorem toInt_toW_modInverse {a : Word} {b : Int} (ha : 0 ≤ a.toInt) (hb : 0 ≤ b)
    (hgcd : Int.gcd a.toInt b = 1) :
    (toW (modInverse a.toInt b).2).toInt = (modInverse a.toInt b).2 := by
  have hmax : a.toInt < 2 ^ 63 := BitVec.toInt_lt
  have hbound := modInverse_coefficient_le ha hb hgcd
  have hlo := neg_abs_le (modInverse a.toInt b).2
  have hhi := le_abs_self (modInverse a.toInt b).2
  exact BitVec.toInt_ofInt_eq_self (by decide) (by omega) (by omega)

/-! What MODINV leaves (R91 to R93). -/

theorem exec_modinv_of_negative {s : State} (h : s.opa.toInt < 0 ∨ s.opb.toInt < 0) :
    exec .modinv s = .next (failed 4 s) := by
  have hresult : commandResult Config.specified .modinv s.opa s.opb s.opc = .error .operandRange :=
    if_pos h
  rw [exec_eq_finish, hresult]
  rfl

theorem exec_modinv_of_common_factor {s : State} (ha : 0 ≤ s.opa.toInt) (hb : 0 ≤ s.opb.toInt)
    (hgcd : Int.gcd s.opa.toInt s.opb.toInt ≠ 1) : exec .modinv s = .next (failed 2 s) := by
  have hinside : ¬ (s.opa.toInt < 0 ∨ s.opb.toInt < 0) := by omega
  have hne : (modInverse s.opa.toInt s.opb.toInt).1 ≠ 1 := by
    rw [modInverse_gcd ha hb]
    exact_mod_cast hgcd
  have hresult : commandResult Config.specified .modinv s.opa s.opb s.opc =
      .error .nonInvertibleExponent :=
    (modinvResult_eq _ _).trans ((if_neg hinside).trans (if_neg hne))
  rw [exec_eq_finish, hresult]
  rfl

theorem exec_modinv_of_coprime {s : State} (ha : 0 ≤ s.opa.toInt) (hb : 0 ≤ s.opb.toInt)
    (hgcd : Int.gcd s.opa.toInt s.opb.toInt = 1) :
    exec .modinv s = .next (succeeded (toW (modInverse s.opa.toInt s.opb.toInt).2) 0 s) := by
  have hinside : ¬ (s.opa.toInt < 0 ∨ s.opb.toInt < 0) := by omega
  have hone : (modInverse s.opa.toInt s.opb.toInt).1 = 1 := by
    rw [modInverse_gcd ha hb, hgcd, Nat.cast_one]
  have hresult : commandResult Config.specified .modinv s.opa s.opb s.opc =
      .ok (toW (modInverse s.opa.toInt s.opb.toInt).2, 0) :=
    (modinvResult_eq _ _).trans ((if_neg hinside).trans (if_pos hone))
  rw [exec_eq_finish, hresult]
  rfl

end Sys2Proof.Machine
end

section
/-! The statements about the Modular Inverse Solver. -/

namespace Sys2Proof.Proofs

open Sys2Proof.Machine Sys2Proof.Safety

/-- Settles O32: the 96th Fibonacci number is above every operand of the width. -/
theorem euclidIterationBound : Obligations.EuclidIterationBound := by
  intro a b k _ hb _ hbmax hk
  calc euclidLoop k { r := a, s := 1, t := 0 } { r := b, s := 0, t := 1 }
      = euclidLoop (k + b.toNat + 1) { r := a, s := 1, t := 0 } { r := b, s := 0, t := 1 } :=
        euclidLoop_eq_of_lt_fib (by omega) hb (.inl (lt_fib_of_lt_width hbmax hk))
    _ = extendedEuclid a b :=
        euclidLoop_fuel _ _ _ _ hb (Nat.lt_succ_of_le (Nat.le_add_left _ _)) (Nat.lt_succ_self _)

/-- Settles O31: the loop's invariant at its last row. -/
theorem euclidEndsAtTheGcd : Obligations.EuclidEndsAtTheGcd := fun _ _ ha hb =>
  ⟨modInverse_gcd ha hb, modInverse_bezout ha hb⟩

/-- Settles O28: Bezout's identity at the gcd 1, with the bound on the last coefficient. -/
theorem modinvReturnsTheBezoutCoefficient : Obligations.ModinvReturnsTheBezoutCoefficient := by
  intro s ha hb hgcd
  refine ⟨(extendedEuclid s.opa.toInt s.opb.toInt).s, _, ?_, modInverse_coefficient_le ha hb hgcd,
    exec_modinv_of_coprime ha hb hgcd, toInt_toW_modInverse ha hb hgcd⟩
  rw [modInverse_bezout ha hb, modInverse_gcd ha hb, hgcd, Nat.cast_one]

/-- Settles O29: the check of the signs comes before the check of the gcd. -/
theorem modinvErrors : Obligations.ModinvErrors := fun _ =>
  ⟨exec_modinv_of_negative, exec_modinv_of_common_factor⟩

/-- Settles O30: the result reads back as the coefficient, and the addition is DECRYPT's of R103. -/
theorem modinvNormalisesByOneAddition : Obligations.ModinvNormalisesByOneAddition := by
  intro s ha hb hgcd
  have ha0 : 0 ≤ s.opa.toInt := by omega
  obtain ⟨d, hd, hlt, hinverse⟩ := exists_normaliseExponent ha0 hb hgcd
  refine ⟨_, exec_modinv_of_coprime ha0 hb hgcd, rfl, ?_⟩
  simp only [toInt_toW_modInverse ha0 hb hgcd]
  rw [← normaliseExponent, hd]
  refine ⟨by omega, by omega, ?_⟩
  have hmod : s.opb.toInt * d ≡ 1 [ZMOD s.opa.toInt] := (Int.modEq_iff_dvd.2 hinverse).symm
  exact hmod.eq.trans (Int.emod_eq_of_lt (by decide) (by omega))

end Sys2Proof.Proofs
end

section
/-! What DECRYPT leaves at each of its checks (44_decrypt.md R102, R104), and what the three commands it is
made of leave (R100). -/

namespace Sys2Proof.Machine

open Sys2Proof.Safety

/-! The pair and its totient (R102). -/

/-- The sign of the cofactor decides the sign of the operand and of the totient. -/
theorem totient_cases {p : Int} {q : Nat} (hq : 3 ≤ q) :
    (p ≤ 0 ∧ p * q ≤ 0 ∧ totient p q < 0) ∨
      (1 ≤ p ∧ 3 ≤ p * q ∧ 0 ≤ totient p q ∧ totient p q < p * q) := by
  have hq' : (3 : Int) ≤ q := by exact_mod_cast hq
  unfold totient
  rcases le_or_gt p 0 with hp | hp
  · exact .inl ⟨hp, by nlinarith, by nlinarith⟩
  · exact .inr ⟨hp, by nlinarith, by nlinarith, by nlinarith⟩

/-- The totient of a positive operand's pair does not leave the operand's own range (R102). -/
theorem totient_range_of_pos {p n : Int} {q : Nat} (hq : 3 ≤ q) (hprod : n = p * q) (hn : 1 ≤ n) :
    0 ≤ totient p q ∧ totient p q < n := by
  rcases totient_cases (p := p) hq with ⟨-, hneg, -⟩ | ⟨-, -, hphi, hlt⟩
  · omega
  · exact ⟨hphi, hprod ▸ hlt⟩

/-- With the specified bound the totient of every found pair is a signed value of the width, a negative one
too: it is below the operand only where the cofactor is smaller in size than the divisor, and there the
operand is small. -/
theorem toInt_ofInt_totient {v : Word} {p : Int} {q : Nat} (h : isFoundDivisor v.toInt q)
    (hprod : v.toInt = p * q) : (BitVec.ofInt 64 (totient p q)).toInt = totient p q := by
  obtain ⟨-, hthree, hbound, -⟩ := h
  have hq : (3 : Int) ≤ q ∧ (q : Int) < 100000 := by omega
  have hlo : -2 ^ 63 ≤ v.toInt := BitVec.le_toInt v
  have hhi : v.toInt < 2 ^ 63 := BitVec.toInt_lt
  have hle : -2 ^ 63 ≤ totient p q := by
    unfold totient
    rcases le_total p (-100000) with hp | hp
    · linarith
    · nlinarith
  have hlt : totient p q < 2 ^ 63 := by
    rcases totient_cases (p := p) hthree with ⟨-, -, hneg⟩ | ⟨-, -, -, hlt⟩ <;> omega
  exact BitVec.toInt_ofInt_eq_self (by decide) hle hlt

/-- A pair the factorizer answers is the found divisor with its exact cofactor. -/
theorem found_of_factorizeSemiprime {bound : Nat} {n p q : Int}
    (h : factorizeSemiprime bound n = .ok (p, q)) :
    ∃ k : Nat, q = k ∧ isFoundDivisorBelow bound n k ∧ n = p * k := by
  rcases factorizeSemiprime_cases_below bound n with ⟨k, hk, hok⟩ | ⟨-, hx⟩
  · have ⟨_, _, _, hdvd, _⟩ := hk
    cases hok.symm.trans h
    exact ⟨k, rfl, hk, (Int.ediv_mul_cancel hdvd).symm⟩
  · cases hx.symm.trans h

/-! The checks of DECRYPT in order (R104). -/

theorem exec_decrypt_of_error {s : State} {x : ErrorName}
    (h : decryptValue Config.specified.bound s.opa.toInt s.opb.toInt s.opc.toInt = .error x) :
    exec .decrypt s = .next (failed (errorCode x) s) := by
  have hresult : commandResult Config.specified .decrypt s.opa s.opb s.opc = .error x := by
    simp only [commandResult, decryptResult, signedValue_eq_toInt, h]
  rw [exec_eq_finish, hresult, finish_error, raiseError_eq_failed]

theorem exec_decrypt_of_none {s : State} (h : noDivisorInBound s.opa.toInt) :
    exec .decrypt s = .next (failed 1 s) := by
  rw [← execWith_specified]
  exact execWith_of_exhausted (.inr rfl) (factorizeSemiprime_of_none h)

section
variable {s : State} {p : Int} {q : Nat} (hq : isFoundDivisor s.opa.toInt q) (hprod : s.opa.toInt = p * q)
include hq hprod

theorem exec_decrypt_of_negative (hneg : totient p q < 0 ∨ s.opb.toInt < 0) :
    exec .decrypt s = .next (failed 4 s) := by
  refine exec_decrypt_of_error (x := .operandRange) ?_
  rw [decryptValue_of_product (bound := Config.specified.bound) hq hprod, decryptWithTotient_eq,
    if_pos hneg]

theorem exec_decrypt_of_common_factor (hphi : 0 ≤ totient p q) (he : 0 ≤ s.opb.toInt)
    (hgcd : Int.gcd (totient p q) s.opb.toInt ≠ 1) : exec .decrypt s = .next (failed 2 s) := by
  have hne : (modInverse (totient p q) s.opb.toInt).1 ≠ 1 := by
    rw [modInverse_gcd hphi he]
    exact_mod_cast hgcd
  refine exec_decrypt_of_error (x := .nonInvertibleExponent) ?_
  rw [decryptValue_of_product (bound := Config.specified.bound) hq hprod, decryptWithTotient_eq,
    if_neg (by omega), if_neg hne]

/-- Once the gcd is 1 what is left is MODPOW's check and `mod_pow` at the normalised coefficient. -/
theorem decryptValue_of_coprime (hphi : 0 ≤ totient p q) (he : 0 ≤ s.opb.toInt)
    (hgcd : Int.gcd (totient p q) s.opb.toInt = 1) (c : Int) :
    decryptValue Config.specified.bound s.opa.toInt s.opb.toInt c =
      if s.opa.toInt < 1 ∨ c < 0 then .error .operandRange
      else .ok (modPow c (toW (normaliseExponent (totient p q)
        (modInverse (totient p q) s.opb.toInt).2)) s.opa.toInt) := by
  have hone : (modInverse (totient p q) s.opb.toInt).1 = 1 := by
    rw [modInverse_gcd hphi he, hgcd, Nat.cast_one]
  rw [decryptValue_of_product (bound := Config.specified.bound) hq hprod, decryptWithTotient_eq,
    if_neg (by omega), if_pos hone]

theorem exec_decrypt_of_outside (hphi : 0 ≤ totient p q) (he : 0 ≤ s.opb.toInt)
    (hgcd : Int.gcd (totient p q) s.opb.toInt = 1) (hout : s.opa.toInt < 1 ∨ s.opc.toInt < 0) :
    exec .decrypt s = .next (failed 4 s) :=
  exec_decrypt_of_error (x := .operandRange)
    ((decryptValue_of_coprime hq hprod hphi he hgcd _).trans (if_pos hout))

theorem exec_decrypt_of_inside (hphi : 0 ≤ totient p q) (he : 0 ≤ s.opb.toInt)
    (hgcd : Int.gcd (totient p q) s.opb.toInt = 1) (hin : ¬ (s.opa.toInt < 1 ∨ s.opc.toInt < 0)) :
    exec .decrypt s = .next (succeeded (toW (modPow s.opc.toInt (toW (normaliseExponent (totient p q)
      (modInverse (totient p q) s.opb.toInt).2)) s.opa.toInt)) 0 s) :=
  exec_decrypt_of_ok ((decryptValue_of_coprime hq hprod hphi he hgcd _).trans (if_neg hin))

end

/-! The three commands, from what each leaves in `STATUS.ERR` (R100). -/

theorem exec_completes (i : Instr) (s : State) : ∃ t, exec i s = .next t := by
  rw [exec_eq_finish]
  exact finish_completes _ s

/-- FACTOR without an error leaves the pair, readable in full. -/
theorem found_of_exec_factor {s f : State} (hf : exec .factor s = .next f) (herr : f.err = 0) :
    isFoundDivisor s.opa.toInt f.res1.toNat ∧ s.opa.toInt = f.res0.toInt * f.res1.toNat ∧
      f.res1.toInt = f.res1.toNat := by
  rcases exec_factor_cases s with ⟨p, q, hq, hprod, hexec⟩ | ⟨-, hexec⟩
  · have ⟨_, hthree, hlt, _⟩ := hq
    have hquot : s.opa.toInt / q = p := by rw [hprod, Int.mul_ediv_cancel p (by omega)]
    have hres0 : (BitVec.ofInt 64 p).toInt = p := hquot ▸ toInt_ofInt_ediv s.opa (by omega)
    have hres1 : (BitVec.ofNat 64 q).toInt = q := toInt_ofNat_of_le_bound Config.specified hlt.le
    have hnat : (BitVec.ofNat 64 q).toNat = q := toNat_ofNat_of_le_bound Config.specified hlt.le
    cases hf.symm.trans hexec
    simpa only [hres0, hres1, hnat, and_true] using And.intro hq hprod
  · cases hf.symm.trans hexec
    exact absurd herr (by decide : (1 : BitVec 3) ≠ 0)

/-- Everything MODINV can do. -/
theorem exec_modinv_cases (s : State) :
    ((s.opa.toInt < 0 ∨ s.opb.toInt < 0) ∧ exec .modinv s = .next (failed 4 s)) ∨
    (0 ≤ s.opa.toInt ∧ 0 ≤ s.opb.toInt ∧ Int.gcd s.opa.toInt s.opb.toInt ≠ 1 ∧
      exec .modinv s = .next (failed 2 s)) ∨
    (0 ≤ s.opa.toInt ∧ 0 ≤ s.opb.toInt ∧ Int.gcd s.opa.toInt s.opb.toInt = 1 ∧
      exec .modinv s = .next (succeeded (toW (modInverse s.opa.toInt s.opb.toInt).2) 0 s)) := by
  by_cases hneg : s.opa.toInt < 0 ∨ s.opb.toInt < 0
  · exact .inl ⟨hneg, exec_modinv_of_negative hneg⟩
  · have ha : 0 ≤ s.opa.toInt := by omega
    have hb : 0 ≤ s.opb.toInt := by omega
    by_cases hgcd : Int.gcd s.opa.toInt s.opb.toInt = 1
    · exact .inr (.inr ⟨ha, hb, hgcd, exec_modinv_of_coprime ha hb hgcd⟩)
    · exact .inr (.inl ⟨ha, hb, hgcd, exec_modinv_of_common_factor ha hb hgcd⟩)

/-- FACTOR's error is DECRYPT's. -/
theorem exec_decrypt_of_factor_error {s f : State} (hf : exec .factor s = .next f) (herr : f.err ≠ 0) :
    exec .decrypt s = .next (failed f.err s) := by
  rcases exec_factor_cases s with ⟨p, q, -, -, hexec⟩ | ⟨hnone, hexec⟩
  · cases hf.symm.trans hexec
    exact absurd rfl herr
  · cases hf.symm.trans hexec
    exact exec_decrypt_of_none hnone

section
variable {s : State} {p : Int} {q : Nat} (hq : isFoundDivisor s.opa.toInt q) (hprod : s.opa.toInt = p * q)
include hq hprod

section
variable {g : State} (hg : exec .modinv { s with opa := BitVec.ofInt 64 (totient p q) } = .next g)
include hg

/-- MODINV's error, on the totient and `e`, is DECRYPT's. -/
theorem exec_decrypt_of_modinv_error (herr : g.err ≠ 0) :
    exec .decrypt s = .next (failed g.err s) := by
  have hcases := exec_modinv_cases { s with opa := BitVec.ofInt 64 (totient p q) }
  simp only [toInt_ofInt_totient hq hprod] at hcases
  rcases hcases with ⟨hneg, hexec⟩ | ⟨hphi, he, hgcd, hexec⟩ | ⟨-, -, -, hexec⟩
  · cases hg.symm.trans hexec
    exact exec_decrypt_of_negative hq hprod hneg
  · cases hg.symm.trans hexec
    exact exec_decrypt_of_common_factor hq hprod hphi he hgcd
  · cases hg.symm.trans hexec
    exact absurd rfl herr

/-- MODINV without an error leaves the coefficient, readable in full. -/
theorem coprime_of_exec_modinv (herr : g.err = 0) :
    0 ≤ totient p q ∧ 0 ≤ s.opb.toInt ∧ Int.gcd (totient p q) s.opb.toInt = 1 ∧
      g.res0.toInt = (modInverse (totient p q) s.opb.toInt).2 := by
  have hphival := toInt_ofInt_totient hq hprod
  have hcases := exec_modinv_cases { s with opa := BitVec.ofInt 64 (totient p q) }
  have hcoefficient := toInt_toW_modInverse (a := BitVec.ofInt 64 (totient p q)) (b := s.opb.toInt)
  simp only [hphival] at hcases hcoefficient
  rcases hcases with ⟨-, hexec⟩ | ⟨-, -, -, hexec⟩ | ⟨hphi, he, hgcd, hexec⟩
  · cases hg.symm.trans hexec
    exact absurd herr (by decide : (4 : BitVec 3) ≠ 0)
  · cases hg.symm.trans hexec
    exact absurd herr (by decide : (2 : BitVec 3) ≠ 0)
  · cases hg.symm.trans hexec
    exact ⟨hphi, he, hgcd, hcoefficient hphi he hgcd⟩

end

/-- After the other two, MODPOW's outcome on `c`, the normalised coefficient and `n` is DECRYPT's. -/
theorem exec_decrypt_of_exec_modpow {h : State} (hphi : 0 ≤ totient p q) (he : 0 ≤ s.opb.toInt)
    (hgcd : Int.gcd (totient p q) s.opb.toInt = 1)
    (hh : exec .modpow { s with
        opa := s.opc
        opb := toW (normaliseExponent (totient p q) (modInverse (totient p q) s.opb.toInt).2)
        opc := s.opa } = .next h) :
    (h.err ≠ 0 → exec .decrypt s = .next (failed h.err s)) ∧
      (h.err = 0 → exec .decrypt s = .next (succeeded h.res0 0 s)) := by
  by_cases hout : s.opa.toInt < 1 ∨ s.opc.toInt < 0
  · cases hh.symm.trans (exec_modpow_of_outside hout)
    exact ⟨fun _ => exec_decrypt_of_outside hq hprod hphi he hgcd hout,
      fun herr => absurd herr (by decide : (4 : BitVec 3) ≠ 0)⟩
  · cases hh.symm.trans (exec_modpow_of_inside hout)
    exact ⟨fun herr => absurd rfl herr, fun _ => exec_decrypt_of_inside hq hprod hphi he hgcd hout⟩

end

/-! The value DECRYPT raises to and the value it leaves (R103, R105). -/

/-- The exponents 0 and 1 as numbers (42_modexp.md R83, R84). -/
theorem modPow_of_toNat_le_one (b m : Int) {E : Word} (h : E.toNat ≤ 1) : modPow b E m = b := by
  rcases Nat.le_one_iff_eq_zero_or_eq_one.1 h with hzero | hone
  · exact modPow_short b m E (.inl (BitVec.eq_of_toNat_eq hzero))
  · exact modPow_short b m E (.inr (BitVec.eq_of_toNat_eq hone))

/-- `mod_pow` at an exponent that fits the register, as R83, R84 and R87 say it. -/
theorem toW_modPow_ofNat (c : Word) (m : Int) {d : Nat} (hd : d < 2 ^ 64) :
    toW (modPow c.toInt (BitVec.ofNat 64 d) m) =
      if d ≤ 1 then c else BitVec.ofInt 64 (c.toInt ^ d % m) := by
  have hval : (BitVec.ofNat 64 d).toNat = d := by rw [BitVec.toNat_ofNat, Nat.mod_eq_of_lt hd]
  split
  next hshort => rw [modPow_of_toNat_le_one _ _ (by omega), toW, BitVec.ofInt_toInt]
  next hlong => rw [modPow_of_two_le _ _ _ (by omega), hval, toW]

/-- The base 0 stays 0 (42_modexp.md R80). -/
theorem modPow_zero (E : Word) (m : Int) : modPow 0 E m = 0 := by
  rcases Nat.lt_or_ge E.toNat 2 with hshort | hlong
  · exact modPow_of_toNat_le_one 0 m (Nat.le_of_lt_succ hshort)
  · rw [modPow_of_two_le 0 m E hlong, zero_pow (by omega), Int.zero_emod]

/-- What DECRYPT delivers is `mod_pow` of `c` at some exponent (R100). -/
theorem modPow_of_decryptValue {bound : Nat} {n e c m : Int} (h : decryptValue bound n e c = .ok m) :
    ∃ E : Word, m = modPow c E n := by
  unfold decryptValue at h
  split at h
  next =>
    rw [decryptWithTotient_eq] at h
    split_ifs at h
    cases h
    exact ⟨_, rfl⟩
  next => cases h

/-- With the ciphertext 0 DECRYPT leaves zero or reports an error. -/
theorem decryptValue_zero_cases (bound : Nat) (n e : Int) :
    decryptValue bound n e 0 = .ok 0 ∨ ∃ x, decryptValue bound n e 0 = .error x := by
  cases h : decryptValue bound n e 0 with
  | error x => exact .inr ⟨x, rfl⟩
  | ok m =>
    obtain ⟨E, rfl⟩ := modPow_of_decryptValue h
    exact .inl (by rw [modPow_zero])

end Sys2Proof.Machine
end

section
/-! The statements about the composition. -/

namespace Sys2Proof.Proofs

open Sys2Proof.Machine Sys2Proof.Safety

/-- Settles O33: each command's outcome decides whether DECRYPT stops there, and the registers between the
commands hold the totient and the normalised coefficient in full. -/
theorem decryptIsTheThreeCommandsInTurn : Obligations.DecryptIsTheThreeCommandsInTurn := by
  intro s
  obtain ⟨f, hf⟩ := exec_completes .factor s
  obtain ⟨g, hg⟩ := exec_completes .modinv
    { s with opa := BitVec.ofInt 64 (totient f.res0.toInt f.res1.toInt) }
  obtain ⟨h, hh⟩ := exec_completes .modpow
    { s with
      opa := s.opc
      opb := toW (normaliseExponent (totient f.res0.toInt f.res1.toInt) g.res0.toInt)
      opc := s.opa }
  have hmodinv (hferr : f.err = 0) (hgerr : g.err ≠ 0) : exec .decrypt s = .next (failed g.err s) := by
    obtain ⟨hq, hprod, hres1⟩ := found_of_exec_factor hf hferr
    exact exec_decrypt_of_modinv_error hq hprod (hres1 ▸ hg) hgerr
  have hmodpow (hferr : f.err = 0) (hgerr : g.err = 0) :
      (h.err ≠ 0 → exec .decrypt s = .next (failed h.err s)) ∧
        (h.err = 0 → exec .decrypt s = .next (succeeded h.res0 0 s)) := by
    obtain ⟨hq, hprod, hres1⟩ := found_of_exec_factor hf hferr
    rw [hres1] at hg hh
    obtain ⟨hphi, he, hgcd, hres0⟩ := coprime_of_exec_modinv hq hprod hg hgerr
    exact exec_decrypt_of_exec_modpow hq hprod hphi he hgcd (hres0 ▸ hh)
  exact ⟨f, g, h, hf, exec_decrypt_of_factor_error hf, hg, hmodinv, hh,
    fun hferr hgerr => (hmodpow hferr hgerr).1, fun hferr hgerr => (hmodpow hferr hgerr).2⟩

/-- Settles O34: the sign of the cofactor decides every range, and the pair of 9 is `(3, 3)`. -/
theorem totientNeverWraps : Obligations.TotientNeverWraps := by
  intro n p q h
  obtain ⟨k, rfl, hk, hprod⟩ := found_of_factorizeSemiprime h
  have ⟨_, hthree, _⟩ := hk
  have hnine : n = 9 → totient p k = 4 := by
    rintro rfl
    have hfound : isFoundDivisorBelow 100000 9 3 :=
      isFoundDivisorBelow_semiprime Nat.prime_three Nat.prime_three (by decide) le_rfl (by decide)
    cases (factorizeSemiprime_of_found hfound).symm.trans h
    rfl
  have hcases := totient_cases (p := p) hthree
  rw [← hprod] at hcases
  rcases hcases with ⟨hp, hneg, hphi⟩ | ⟨hp, hpos, hphi, hlt⟩
  · exact ⟨rfl, fun hn => absurd hn (by omega), fun _ => ⟨hp, hphi⟩, .inl hneg, hnine⟩
  · exact ⟨rfl, fun _ => ⟨hp, by omega, hphi, hlt⟩, fun hn => absurd hn (by omega), .inr hpos, hnine⟩

/-- Settles O35: a found pair with a totient that is not negative has a positive operand. -/
theorem decryptErrorOrder : Obligations.DecryptErrorOrder := by
  refine fun s => ⟨exec_decrypt_of_none, fun p q hq hprod => ?_⟩
  refine ⟨exec_decrypt_of_negative hq hprod.symm, fun hphi he =>
    ⟨exec_decrypt_of_common_factor hq hprod.symm hphi he, fun hgcd =>
      ⟨exec_decrypt_of_outside hq hprod.symm hphi he hgcd, ?_⟩⟩⟩
  have ⟨_, hthree, _⟩ := hq
  rcases totient_cases (p := p) hthree with ⟨-, -, hneg⟩ | ⟨-, hpos, -⟩
  · exact absurd hneg (not_lt.2 hphi)
  · omega

/-- Settles O36: the exponent is in the range of R103, so it fits `mod_pow`'s register unchanged. -/
theorem decryptRaisesToTheInverseExponent : Obligations.DecryptRaisesToTheInverseExponent := by
  intro s p q hq hprod hn he hc hgcd
  have ⟨_, hthree, _⟩ := hq
  have hmax : s.opa.toInt < 2 ^ 63 := BitVec.toInt_lt
  obtain ⟨hphi, hphin⟩ := totient_range_of_pos hthree hprod.symm hn
  obtain ⟨d, hd, hdvd, hexec⟩ := exec_decrypt_of_coprime hq hprod.symm hphi he hgcd hn hc
  rw [toW_modPow_ofNat _ _ (by omega)] at hexec
  exact ⟨d, hd, hdvd, hexec⟩

/-- Settles O37: the powers with `e` and with its inverse undo each other on the residues, in both orders:
one gives that the result is a plaintext, the other that no other residue is. -/
theorem decryptRecoversTheUniquePlaintext : Obligations.DecryptRecoversTheUniquePlaintext := by
  intro s p q hp hq h2 hlt hbound hn he hgcd h0 hc
  obtain ⟨d, hd, hdvd, hexec⟩ := exec_decrypt_of_semiprime hp hq h2 hlt hbound hn he hgcd h0 hc
  obtain ⟨e, hval⟩ : ∃ e : Nat, s.opb.toInt = e := ⟨_, (Int.toNat_of_nonneg (by omega)).symm⟩
  rw [hval] at hdvd ⊢
  rw [Int.toNat_natCast]
  have hepos : 0 < e := by omega
  refine ⟨_, hexec, Int.emod_nonneg _ (by omega), Int.emod_lt_of_pos _ (by omega), ?_, ?_⟩
  · rw [hn] at hc ⊢
    rw [mul_comm] at hdvd
    calc (s.opc.toInt ^ d % ((p : Int) * q)) ^ e
        ≡ (s.opc.toInt ^ d % ((p : Int) * q)) ^ e % ((p : Int) * q) [ZMOD p * q] :=
          (Int.mod_modEq _ _).symm
      _ = s.opc.toInt := pow_emod_pow_emod_of_inverse hp hq hlt.ne' hd hepos hdvd h0 hc
  · intro x hx0 hx hcipher
    rw [hn] at hc hx hcipher ⊢
    have hresidue : x ^ e % ((p : Int) * q) = s.opc.toInt := hcipher.eq.trans (Int.emod_eq_of_lt h0 hc)
    have hplain := pow_emod_pow_emod_of_inverse hp hq hlt.ne' hepos hd hdvd hx0 hx
    rw [hresidue] at hplain
    exact hplain.symm

/-- Settles O39: `mod_pow` of the base 0 is 0, and an error leaves zero results. -/
theorem decryptOfZeroIsZero : Obligations.DecryptOfZeroIsZero := by
  intro s hc
  have hvalue := decryptValue_zero_cases Config.specified.bound s.opa.toInt s.opb.toInt
  have hzero : (0 : Int) = s.opc.toInt := by rw [hc]; rfl
  rw [hzero] at hvalue
  rcases hvalue with hok | ⟨x, herr⟩
  · exact ⟨_, exec_decrypt_of_ok hok, by rw [← hzero]; rfl, rfl⟩
  · exact ⟨_, exec_decrypt_of_error herr, rfl, rfl⟩

end Sys2Proof.Proofs
end

section
/-! Reset (70_reset_and_hazards.md R130, R131) and the completion of every step (R139). -/

namespace Sys2Proof.Machine

/-- Reset looks at nothing of the block's registers: two states with the same host's side reset alike. -/
theorem resetBlock_congr {s t : State} (hscript : s.script = t.script) (hreturned : s.returned = t.returned) :
    resetBlock s = resetBlock t := by
  simp only [resetBlock, hscript, hreturned]

/-- A step at a write, to any number, uses up the write and hands the host nothing. -/
theorem step_write_hostSide {s : State} {k : RegNum} {v : Word} {rest : List HostAction}
    (h : s.script = .present (.regWrite k v) :: rest) :
    ∃ t, step s = .next t ∧ t.script = rest ∧ t.returned = s.returned := by
  obtain ⟨t, ht, hscript, hreturned, -⟩ := regWrite_frame Config.specified k v (s.setScript rest)
  rw [execWith_specified] at ht
  exact ⟨t, (step_write h).trans ht, hscript, hreturned⟩

/-- Two states about to reset, with the same actions to follow and the same reads behind them, take the
same step. -/
theorem step_reset_congr {s t : State} {rest : List HostAction} (hs : s.script = .assertReset :: rest)
    (ht : t.script = .assertReset :: rest) (hreturned : s.returned = t.returned) : step s = step t := by
  rw [step_reset hs, step_reset ht,
    resetBlock_congr (s := s.setScript rest) (t := t.setScript rest) rfl hreturned]

end Sys2Proof.Machine
end

section
/-! The statements about reset and hazards. -/

namespace Sys2Proof.Proofs

open Sys2Proof.Machine Sys2Proof.Safety

/-- Settles O40: a step with no action left, a read and a reset each answer a state outright, and a write
does because every command completes. -/
theorem everyStepCompletes : Obligations.EveryStepCompletes := by
  intro s
  rcases step_cases s with ⟨-, h⟩ | ⟨k, rest, -, h⟩ | ⟨k, v, rest, hs, -⟩ | ⟨rest, -, h⟩
  case inr.inr.inl =>
    obtain ⟨t, ht, -⟩ := step_write_hostSide hs
    exact ⟨t, ht⟩
  all_goals exact ⟨_, h⟩

/-- Settles O15: the command completes and leaves the host's side of the port alone, which is all that the
reset after it looks at. -/
theorem resetHidesTheCommand : Obligations.ResetHidesTheCommand := by
  intro s v rest hs
  obtain ⟨t, ht, hscript, hreturned⟩ := step_write_hostSide hs
  have hreset : step t = step { s with script := .assertReset :: rest } :=
    step_reset_congr hscript rfl hreturned
  calc runSteps 2 s
      = runSteps 1 t := runSteps_succ ht 1
    _ = step t := runSteps_one t
    _ = step { s with script := .assertReset :: rest } := hreset
    _ = runSteps 1 { s with script := .assertReset :: rest } := (runSteps_one _).symm

end Sys2Proof.Proofs
end

section
/-! A command placed as the host's next write to `CMD` (log 2), a step with no action left
(60_exceptions.md R124; log 3), and the state after reset (70_reset_and_hazards.md R130; log 4). -/

namespace Sys2Proof

/-- A command word is its own opcode-table word of 64 bits. -/
@[simp] theorem tableWord_toNat (v : Word) : tableWord 64 v.toNat = v := by
  rw [tableWord, Nat.mod_eq_of_lt v.isLt, BitVec.ofNat_toNat, BitVec.setWidth_eq]

end Sys2Proof

namespace Sys2Proof.Machine

/-- A placed word is the host's next write to `CMD`, before the actions it still had. -/
theorem withFetchWord_script (s : State) (v : Word) :
    (s.withFetchWord 64 v.toNat).script = .present (.regWrite 5 v) :: s.script := by
  simp only [State.withFetchWord, tableWord_toNat]

/-- A step with no host action left. -/
theorem step_idle {s : State} (h : s.script = []) : step s = .next s := by
  simp only [step, runNextAction, h]

/-- The reset values written out (10_state.md R23), beside the host's two lists as they were (log 4). -/
theorem resetBlock_eq (s : State) :
    resetBlock s =
      { opa := 0, opb := 0, opc := 0, res0 := 0, res1 := 0, cmd := 0, done := false, err := 0,
        script := s.script, returned := s.returned } := rfl

end Sys2Proof.Machine
end

section
/-! The remaining statements about the register port and reset. -/

namespace Sys2Proof.Proofs

open Sys2Proof.Machine Sys2Proof.Safety

/-- Settles O6: the placed write is used up, and its word decodes to the command it encodes. -/
theorem placedWordRunsNext : Obligations.PlacedWordRunsNext := by
  intro s i
  calc step (s.withFetchWord 64 (encode i).toNat)
      = exec i { s.withFetchWord 64 (encode i).toNat with script := s.script, cmd := encode i } :=
        stepRunsDecodedCommand _ _ i s.script (withFetchWord_script s (encode i)) (decode_encode i)
    _ = exec i { s with cmd := encode i } := rfl

/-- Settles O12: with no action to perform, `runNextAction` answers the state as it stands. -/
theorem idleWithoutHostAction : Obligations.IdleWithoutHostAction := fun _ => step_idle

/-- Settles O14: the step uses up the reset and leaves the reset values beside the host's two lists. -/
theorem resetInputClearsEveryRegister : Obligations.ResetInputClearsEveryRegister := by
  intro s rest h
  rw [step_reset h, resetBlock_eq, setScript_script, setScript_returned]

end Sys2Proof.Proofs
end
